-- ==== Sys2Proof/Word.lean ====
section
/-! DEFINITION. The word types of the block: 32-bit registers and bus words, bytes of PBUF, and bit-strings (00_scope.md R9, R10). -/

namespace Sys2Proof

/-- Every register and every bus transfer is one unsigned 32-bit word (00_scope.md R9, 20_memory.md R70). -/
abbrev Word := BitVec 32

/-- One byte of the packet buffer (10_state.md R51). -/
abbrev Byte := BitVec 8

/-- A bit-string, first bit first (00_scope.md R10). -/
abbrev Bits := List Bool

end Sys2Proof
end

