-- ==== Sys2Proof/Config.lean ====
section
/-! DEFINITION. What one build of the block fixes (00_scope.md R7) and the one value the spec leaves free (PBUF_INIT). -/

namespace Sys2Proof

/-- One entry of the code table (10_state.md R44). `sym` uses the low 8*ORDER bits and `code` the low MAX_LEN bits
of their words (DESIGN CHOICE, log entry 6). -/
structure Entry where
  valid : Bool
  sym   : Word
  len   : BitVec 6
  code  : Word
  deriving DecidableEq, Repr

/-- What an entry that is not valid holds (10_state.md R54). -/
def Entry.empty : Entry := { valid := false, sym := 0#32, len := 0#6, code := 0#32 }

/-- The code table as index and entry pairs, indices rising. An index that is not listed holds `Entry.empty`
(DESIGN CHOICE, log entry 6). -/
abbrev Table := List (Nat × Entry)

/-- The build parameters of 00_scope.md R7, all but PBUF_INIT. They are data, so that one model covers every build
(DESIGN CHOICE, log entry 3). -/
structure Config where
  /-- ORDER: the symbol width in bytes, 1 to 4. -/
  order     : Nat
  /-- MAX_LEN: the longest codeword in bits, 1 to 32. -/
  maxLen    : Nat
  /-- TABLE_DEPTH: the number of table entries, 1 to 65536. -/
  tableDepth : Nat
  /-- PBUF_BYTES: the size of the packet buffer, 1 to 2^24. -/
  pbufBytes : Nat
  /-- TABLE_ROM: the table is the read-only image `tableInit`. -/
  tableRom  : Bool
  /-- TABLE_INIT: the table image used when `tableRom` is true. -/
  tableInit : Table
  deriving DecidableEq, Repr

/-- The default column of 00_scope.md R7. -/
def Config.default : Config :=
  { order := 1, maxLen := 32, tableDepth := 256, pbufBytes := 4096, tableRom := false, tableInit := [] }

/-- PBUF_INIT (00_scope.md R7, 70_reset_and_hazards.md R302): byte `index` of the packet buffer after the power-on
numbered `powerOn`. A free value: it has no body, so nothing can be proved of it (log entry 4). -/
opaque Config.pbufInit (powerOn index : Nat) : Byte

/-- SW = 8*ORDER, the bits of a symbol (00_scope.md R8). -/
def Config.symBits (c : Config) : Nat := 8 * c.order

/-- CAP = 8*PBUF_BYTES, the most bits the encoder's sequence holds (00_scope.md R8). -/
def Config.capBits (c : Config) : Nat := 8 * c.pbufBytes

end Sys2Proof
end

