-- ==== Sys2Proof/Machine/SparseMap.lean ====
section
/-! DEFINITION. Finite maps from numbers as lists of pairs in one canonical form, keys strictly rising. The packet
buffer and the code table are both held so. -/

namespace Sys2Proof.Machine

/-- The value listed at key `i`, if any. -/
def SMap.get? {α : Type} : List (Nat × α) → Nat → Option α
  | [], _ => none
  | (k, v) :: m, i => if k = i then some v else SMap.get? m i

/-- The map with `v` listed at key `i`; keys stay strictly rising. -/
def SMap.insert {α : Type} : List (Nat × α) → Nat → α → List (Nat × α)
  | [], i, v => [(i, v)]
  | (k, w) :: m, i, v =>
    if i < k then (i, v) :: (k, w) :: m
    else if i = k then (i, v) :: m
    else (k, w) :: SMap.insert m i v

/-- The map with nothing listed at key `i`. -/
def SMap.erase {α : Type} (m : List (Nat × α)) (i : Nat) : List (Nat × α) :=
  m.filter (fun p => decide (p.1 ≠ i))

/-- The canonical form: keys strictly rising. -/
abbrev SMap.wf {α : Type} (m : List (Nat × α)) : Prop :=
  m.Pairwise (fun p q => p.1 < q.1)

end Sys2Proof.Machine
end

