-- ==== Sys2Proof/Machine/Lookup.lean ====
section
/-! DEFINITION. The code table's accessors, the prefix relation and the two lookups (40_table.md R130 to R132). -/

namespace Sys2Proof.Machine

/-- `T[i]` (10_state.md R44, R54): the entry listed at `i`, or all zeros. -/
def entryAt (t : Table) (i : Nat) : Entry :=
  (SMap.get? t i).getD Entry.empty

/-- `T[i] <- e`: an entry with all fields zero is not listed, so that equal tables are equal lists. -/
def putEntry (t : Table) (i : Nat) (e : Entry) : Table :=
  if e = Entry.empty then SMap.erase t i else SMap.insert t i e

/-- The number of valid entries, which TBL_COUNT reads (10_state.md R46). -/
def validCount (t : Table) : Nat :=
  (t.filter (fun p => p.2.valid)).length

/-- One codeword `(la, ca)` or `(lb, cb)` is a prefix of the other (40_table.md R132). -/
def inPrefix (la ca lb cb : Nat) : Bool :=
  (decide (la ≤ lb) && (cb >>> (lb - la) == ca)) || (decide (lb ≤ la) && (ca >>> (la - lb) == cb))

/-- The prefix relation of two entries' codewords. -/
def entryInPrefix (a b : Entry) : Bool :=
  inPrefix a.len.toNat a.code.toNat b.len.toNat b.code.toNat

/-- `SymLookup(s)` (40_table.md R130): the index of the valid entry that holds symbol `s`. -/
def symLookup : Table → Word → Option Nat
  | [], _ => none
  | (i, e) :: t, s => if e.valid = true ∧ e.sym = s then some i else symLookup t s

/-- `CodeLookup(l, c)` (40_table.md R131): the index of the valid entry whose codeword has length `l` and value `c`. -/
def codeLookup : Table → Nat → Nat → Option Nat
  | [], _, _ => none
  | (i, e) :: t, l, c =>
    if e.valid = true ∧ e.len.toNat = l ∧ e.code.toNat = c then some i else codeLookup t l c

/-- Some valid entry other than `i` holds symbol `s` (the DUP_SYMBOL check of 40_table.md R134). -/
def symbolTaken (t : Table) (i : Nat) (s : Word) : Bool :=
  t.any (fun p => p.1 != i && p.2.valid && p.2.sym == s)

/-- Some valid entry other than `i` has a codeword in prefix relation with `(l, c)` (the PREFIX_CONFLICT check of
40_table.md R134). -/
def prefixTaken (t : Table) (i l c : Nat) : Bool :=
  t.any (fun p => p.1 != i && p.2.valid && inPrefix l c p.2.len.toNat p.2.code.toNat)

end Sys2Proof.Machine
end

