-- ==== Sys2Proof/Syntax.lean ====
section
/-! DEFINITION. The instructions of the block: its twelve commands (30_encoding.md R101), one constructor per row of
spec/opcode_table.json. No command carries an operand: operands stand in the operand registers (30_encoding.md R100, R103). -/

namespace Sys2Proof

/-- The commands (30_encoding.md R101). -/
inductive Instr where
  | nop            -- 0x00, 43_control.md R220
  | tblClear       -- 0x01, 40_table.md R133
  | tblWrite       -- 0x02, 40_table.md R134
  | tblRead        -- 0x03, 40_table.md R135
  | tblInvalidate  -- 0x04, 40_table.md R136
  | encStart       -- 0x10, 41_encoder.md R161
  | encPut         -- 0x11, 41_encoder.md R162
  | encFinish      -- 0x12, 41_encoder.md R163
  | decStart       -- 0x20, 42_decoder.md R192
  | decNext        -- 0x21, 42_decoder.md R193
  | abort          -- 0xF0, 43_control.md R221
  | softReset      -- 0xFF, 43_control.md R222
  deriving DecidableEq, Repr

end Sys2Proof
end

