-- ==== Sys2Proof/WellFormed.lean ====
section
/-! DEFINITION. Well-formed terms: commands, code tables (10_state.md R45) and builds (00_scope.md R7). -/

namespace Sys2Proof

/-- A command has no operand field, so every command is well formed (30_encoding.md R100). -/
def Instr.wf : Instr → Bool
  | .nop | .tblClear | .tblWrite | .tblRead | .tblInvalidate
  | .encStart | .encPut | .encFinish | .decStart | .decNext | .abort | .softReset => true

/-- The checks on one listed entry: its index exists (10_state.md R44), it is valid (T5: an invalid entry is all zero and
is not listed), its symbol has SW bits, and T1 and T2 of 10_state.md R45 hold. -/
abbrev Entry.wf (c : Config) (i : Nat) (e : Entry) : Prop :=
  i < c.tableDepth ∧ e.valid = true ∧ e.sym.toNat < 2 ^ c.symBits ∧
    (1 ≤ e.len.toNat ∧ e.len.toNat ≤ c.maxLen) ∧ e.code.toNat < 2 ^ e.len.toNat

/-- T3 and T4 of 10_state.md R45 for two entries: different symbols, codewords not in prefix relation. -/
abbrev Entry.apart (a b : Entry) : Prop :=
  a.sym ≠ b.sym ∧ Machine.entryInPrefix a b = false

/-- The table invariant T1 to T5 (10_state.md R45), on the canonical list form. -/
abbrev Table.wf (c : Config) (t : Table) : Prop :=
  Machine.SMap.wf t ∧ (∀ p ∈ t, Entry.wf c p.1 p.2) ∧ t.Pairwise (fun p q => Entry.apart p.2 q.2)

/-- A legal build: every parameter in its range and TABLE_INIT meeting R45 (00_scope.md R7). -/
abbrev Config.wf (c : Config) : Prop :=
  (1 ≤ c.order ∧ c.order ≤ 4) ∧ (1 ≤ c.maxLen ∧ c.maxLen ≤ 32) ∧ (1 ≤ c.tableDepth ∧ c.tableDepth ≤ 65536) ∧
    (1 ≤ c.pbufBytes ∧ c.pbufBytes ≤ 2 ^ 24) ∧ Table.wf c c.tableInit

end Sys2Proof
end

