-- ==== Sys2Proof/Decode.lean ====
section
/-! DEFINITION. Command words (30_encoding.md R100 to R102): the decoder, total on every 32-bit word, and after it the
encoder. -/

namespace Sys2Proof

/-- Why a word is no command (30_encoding.md R102). -/
inductive DecodeReject where
  /-- `w[31:8]` is not zero. -/
  | reservedBits
  /-- `w[7:0]` is no opcode of R101. -/
  | unassignedOpcode
  deriving DecidableEq, Repr

/-- OP, bits [7:0] of a command word (30_encoding.md R100). -/
def opField (w : Word) : BitVec 8 := w.extractLsb' 0 8

/-- RSV, bits [31:8] of a command word (30_encoding.md R100). -/
def rsvField (w : Word) : BitVec 24 := w.extractLsb' 8 24

/-- The opcode map of 30_encoding.md R101. -/
def decodeOp (op : BitVec 8) : Except DecodeReject Instr :=
  match op.toNat with
  | 0x00 => .ok .nop
  | 0x01 => .ok .tblClear
  | 0x02 => .ok .tblWrite
  | 0x03 => .ok .tblRead
  | 0x04 => .ok .tblInvalidate
  | 0x10 => .ok .encStart
  | 0x11 => .ok .encPut
  | 0x12 => .ok .encFinish
  | 0x20 => .ok .decStart
  | 0x21 => .ok .decNext
  | 0xF0 => .ok .abort
  | 0xFF => .ok .softReset
  | _ => .error .unassignedOpcode

/-- Decode a command word: the reserved bits must be zero and the opcode assigned (30_encoding.md R100 to R102). -/
def decode (w : Word) : Except DecodeReject Instr :=
  if rsvField w = 0#24 then decodeOp (opField w) else .error .reservedBits

/-- OP of a command (30_encoding.md R101). -/
def opcode : Instr → BitVec 8
  | .nop => 0x00#8
  | .tblClear => 0x01#8
  | .tblWrite => 0x02#8
  | .tblRead => 0x03#8
  | .tblInvalidate => 0x04#8
  | .encStart => 0x10#8
  | .encPut => 0x11#8
  | .encFinish => 0x12#8
  | .decStart => 0x20#8
  | .decNext => 0x21#8
  | .abort => 0xF0#8
  | .softReset => 0xFF#8

/-- The word of a command: RSV zero above OP (30_encoding.md R100). -/
def encode (i : Instr) : Word := 0#24 ++ opcode i

/-- The instruction the decoder reads from the table word `w` of `nbits` bits. A command is one 32-bit bus word, so no
byte order enters (20_memory.md R80). -/
def decodeTableWord (nbits w : Nat) : Option Instr :=
  if w % 2 ^ nbits < 2 ^ 32 then
    match decode (BitVec.ofNat 32 (w % 2 ^ nbits)) with
    | .ok i => some i
    | .error _ => none
  else none

end Sys2Proof
end

