-- ==== Sys2Proof/Machine/State.lean ====
section
/-! DEFINITION. The state of the machine: everything the spec gives the block (10_state.md), and the host's accesses and
the values they returned. Plain data throughout. -/

namespace Sys2Proof.Machine

/-- STATUS.MODE (10_state.md R36). Value 3 is never produced (93_implementation_defined.md K1.11). -/
inductive Mode where
  | idle
  | encoding
  | decoding
  deriving DecidableEq, Repr

/-- CTRL.BYTE_ORDER (10_state.md R35): 0 is big-endian, 1 little-endian. -/
inductive ByteOrder where
  | big
  | little
  deriving DecidableEq, Repr

/-- STATUS.RESULT (60_exceptions.md R270). Codes 14 and 15 are never produced (93_implementation_defined.md K1.12). -/
inductive Result where
  | ok
  | illegalCmd
  | badMode
  | badIndex
  | badLen
  | dupSymbol
  | prefixConflict
  | noSymbol
  | overflow
  | empty
  | range
  | noSentinel
  | decode
  | tableRo
  deriving DecidableEq, Repr

/-- What reaches the block from outside: the two bus transactions (20_memory.md R70) and the power-on reset input
(70_reset_and_hazards.md R300). -/
inductive HostEvent where
  /-- `MemRead(addr, 4)`. -/
  | read (addr : Word)
  /-- `MemWrite(addr, 4, data)`. -/
  | write (addr data : Word)
  /-- Power-on reset, which is not a transaction. -/
  | powerOn
  deriving DecidableEq, Repr

/-- The block never stops with a fault: every transaction from every state completes (60_exceptions.md R287). -/
inductive Fault
  deriving DecidableEq, Repr

/-- Why a step is refused. -/
inductive Refusal where
  /-- Raised by `exec` for a command that has no meaning yet (none is left). Safe: the machine stops. -/
  | notModelled (mnemonic : String)
  deriving DecidableEq, Repr

/-- The machine's state (10_state.md). ID is a constant, CMD holds nothing, and ENC_BITS and TBL_COUNT are views of
`ebits` and `table` (R38, R46, R47). -/
structure State where
  /-- The build parameters (00_scope.md R7), which CONFIG, CFG_DEPTH and CFG_PBUF read. -/
  config      : Config
  /-- CTRL.BYTE_ORDER (R35). -/
  byteOrder   : ByteOrder
  /-- STATUS.MODE (R36). -/
  mode        : Mode
  /-- STATUS.SYM_VALID (R37, R60). -/
  symValid    : Bool
  /-- STATUS.DONE (R37, R60). -/
  done        : Bool
  /-- STATUS.RESULT (R37). -/
  result      : Result
  /-- ARG_SYM (R39). -/
  argSym      : Word
  /-- ARG_CODE (R40). -/
  argCode     : Word
  /-- TBL_IDX.IDX (R41). -/
  tblIdx      : BitVec 16
  /-- TBL_LEN.LEN (R42). -/
  tblLen      : BitVec 6
  /-- TBL_LEN.VALID (R42). -/
  tblLenValid : Bool
  /-- PKT_LEN (R43). -/
  pktLen      : Word
  /-- SYM_COUNT (R48). -/
  symCount    : Word
  /-- DEC_SYM (R49). -/
  decSym      : Word
  /-- DEC_POS (R50). -/
  decPos      : Word
  /-- The code table T (R44). -/
  table       : Table
  /-- PBUF (R51): the bytes written since power-on, by index. A byte that is not listed is PBUF_INIT's (log entries 4, 5). -/
  pbuf        : List Host.Cell
  /-- EBITS (R52). -/
  ebits       : Bits
  /-- DBITS (R53). -/
  dbits       : Bits
  /-- The model's own field: which draw of PBUF_INIT the last power-on left (log entry 4). -/
  powerOns    : Nat
  /-- The model's own field: the host's accesses still to come, the next one first (log entry 1). -/
  hostIn      : List HostEvent
  /-- The model's own field: the values the host's reads returned, oldest first (00_scope.md R14, log entry 2). -/
  hostOut     : List Word
  deriving DecidableEq, Repr

/-- The machine right after power-on reset, default build (10_state.md R59, 00_scope.md R7). -/
def State.reset : State :=
  { config := Config.default, byteOrder := .big, mode := .idle, symValid := false, done := false, result := .ok,
    argSym := 0#32, argCode := 0#32, tblIdx := 0#16, tblLen := 0#6, tblLenValid := false, pktLen := 0#32,
    symCount := 0#32, decSym := 0#32, decPos := 0#32, table := [], pbuf := [], ebits := [], dbits := [],
    powerOns := 0, hostIn := [], hostOut := [] }

end Sys2Proof.Machine
end

