-- ==== Sys2Proof/Machine/Flags.lean ====
section
/-! DEFINITION. The STATUS register: how its fields read (10_state.md R36, R37) and the flag updates of the flag table
(10_state.md R60). -/

namespace Sys2Proof.Machine

/-- The two bits of MODE (10_state.md R36). -/
def modeCode : Mode → BitVec 2
  | .idle => 0#2
  | .encoding => 1#2
  | .decoding => 2#2

/-- The four bits of RESULT (60_exceptions.md R270). -/
def resultCode : Result → BitVec 4
  | .ok => 0#4
  | .illegalCmd => 1#4
  | .badMode => 2#4
  | .badIndex => 3#4
  | .badLen => 4#4
  | .dupSymbol => 5#4
  | .prefixConflict => 6#4
  | .noSymbol => 7#4
  | .overflow => 8#4
  | .empty => 9#4
  | .range => 10#4
  | .noSentinel => 11#4
  | .decode => 12#4
  | .tableRo => 13#4

/-- STATUS as the host reads it: RESULT in [11:8], DONE in [3], SYM_VALID in [2], MODE in [1:0] (10_state.md R37). -/
def statusWord (s : State) : Word :=
  0#20 ++ resultCode s.result ++ 0#4 ++ BitVec.ofBool s.done ++ BitVec.ofBool s.symValid ++ modeCode s.mode

/-- SYM_VALID and DONE take the given values (10_state.md R60). -/
def setFlags (symValid done : Bool) (s : State) : State :=
  { s with symValid := symValid, done := done }

end Sys2Proof.Machine
end

