-- ==== Sys2Proof/Machine/BitString.lean ====
section
/-! DEFINITION. Bit-strings and the packed bitstream (00_scope.md R10, 20_memory.md R81, R90, 42_decoder.md R191). -/

namespace Sys2Proof.Machine

/-- `bits(v, n)` (00_scope.md R10): the n-bit string of `v`, most significant bit first. -/
def bits (v : Nat) : Nat → Bits
  | 0 => []
  | n + 1 => v.testBit n :: bits v n

/-- `int(s)` (00_scope.md R10): the number whose binary digits are `s`. -/
def bitsToNat (s : Bits) : Nat :=
  s.foldl (fun v b => 2 * v + b.toNat) 0

/-- `s[i..j)` (00_scope.md R10). -/
def slice (s : Bits) (i j : Nat) : Bits :=
  (s.drop i).take (j - i)

/-- `ceil(L/8)`, the bytes of a packet of `L` bits (20_memory.md R81). -/
def packedLen (s : Bits) : Nat :=
  (s.length + 7) / 8

/-- Byte `i` of `n` bytes of the number `v` in the given byte order (20_memory.md R81). -/
def packedByte (v n : Nat) (bo : ByteOrder) (i : Nat) : Byte :=
  match bo with
  | .big => BitVec.ofNat 8 (v >>> (8 * (n - 1 - i)))
  | .little => BitVec.ofNat 8 (v >>> (8 * i))

/-- `Pack(s, bo)` (20_memory.md R81). -/
def pack (s : Bits) (bo : ByteOrder) : List Byte :=
  (List.range (packedLen s)).map (packedByte (bitsToNat s) (packedLen s) bo)

/-- The number `W` of `Unpack` (20_memory.md R90): the bytes read as one number in the given byte order. -/
def packetValue (b : List Byte) (bo : ByteOrder) : Nat :=
  match bo with
  | .big => b.foldl (fun w x => 256 * w + x.toNat) 0
  | .little => b.foldr (fun x w => x.toNat + 256 * w) 0

/-- `Unpack(B, bo)` (20_memory.md R90). -/
def unpack (b : List Byte) (bo : ByteOrder) : Bits :=
  bits (packetValue b bo) (8 * b.length)

/-- `FirstOne(D)` (42_decoder.md R191): the index of the first 1 bit. -/
def firstOne : Bits → Option Nat
  | [] => none
  | true :: _ => some 0
  | false :: d => (firstOne d).map (· + 1)

end Sys2Proof.Machine
end

