-- ==== Sys2Proof/Machine/Ops.lean ====
section
/-! DEFINITION. The operations the commands share: how a command ends (60_exceptions.md R274), the packet buffer
(10_state.md R51), and the two resets (70_reset_and_hazards.md). -/

namespace Sys2Proof.Machine

/-- `finish OK` (00_scope.md R11). -/
def finishOk (s : State) : Host.Outcome State Fault Refusal :=
  .next { s with result := .ok }

/-- The errors that end the running operation (60_exceptions.md R270, R274). -/
def aborts : Result → Bool
  | .noSymbol | .overflow | .empty | .decode => true
  | .ok | .illegalCmd | .badMode | .badIndex | .badLen | .dupSymbol | .prefixConflict | .range | .noSentinel
  | .tableRo => false

/-- `raise e`, the error action of 60_exceptions.md R274: RESULT <- e, and MODE <- IDLE if `e` aborts. -/
def raised (e : Result) (s : State) : State :=
  { s with result := e, mode := if aborts e then .idle else s.mode }

/-- A command that ends with `raise e` (60_exceptions.md R274). -/
def raiseError (e : Result) (s : State) : Host.Outcome State Fault Refusal :=
  .next (raised e s)

/-- The canonical form of the packet buffer's list: indices strictly rising. No byte is known to equal what an unlisted
index reads as, a free value, so no written byte is left out (log entry 5). -/
abbrev Memory.wf (m : List Host.Cell) : Prop := SMap.wf m

/-- What a byte of PBUF that nothing has written since power-on reads as: PBUF_INIT's byte (70_reset_and_hazards.md
R302). -/
def unwrittenByte (powerOns i : Nat) : Byte := Config.pbufInit powerOns i

/-- `PBUF[i]`. -/
def readByte (s : State) (i : Nat) : Byte :=
  (SMap.get? s.pbuf i).getD (unwrittenByte s.powerOns i)

/-- `PBUF[i] <- b`. -/
def writeByte (m : List Host.Cell) (i : Nat) (b : Byte) : List Host.Cell :=
  SMap.insert m i b

/-- `PBUF[i] <- B[0]; PBUF[i+1] <- B[1]; …`. -/
def writeBytes (m : List Host.Cell) (i : Nat) : List Byte → List Host.Cell
  | [] => m
  | b :: bs => writeBytes (writeByte m i b) (i + 1) bs

/-- The packet `PBUF[0 .. PKT_LEN-1]` (10_state.md R51). -/
def packet (s : State) : List Byte :=
  (List.range s.pktLen.toNat).map (readByte s)

/-- The table at reset (70_reset_and_hazards.md R303). -/
def resetTable (c : Config) : Table := if c.tableRom then c.tableInit else []

/-- Everything but PBUF takes its reset value (10_state.md R59, 70_reset_and_hazards.md R301). -/
def resetRegisters (s : State) : State :=
  { s with byteOrder := .big, mode := .idle, symValid := false, done := false, result := .ok,
           argSym := 0#32, argCode := 0#32, tblIdx := 0#16, tblLen := 0#6, tblLenValid := false, pktLen := 0#32,
           symCount := 0#32, decSym := 0#32, decPos := 0#32, table := resetTable s.config, ebits := [], dbits := [] }

/-- Power-on reset (70_reset_and_hazards.md R300 to R303): the registers are reset and PBUF holds a fresh draw of
PBUF_INIT. -/
def powerOnReset (s : State) : State :=
  { resetRegisters s with pbuf := [], powerOns := s.powerOns + 1 }

end Sys2Proof.Machine
end

