-- ==== Sys2Proof/Machine/Control.lean ====
section
/-! DEFINITION. The control commands (43_control.md): NOP, ABORT, SOFT_RESET. -/

namespace Sys2Proof.Machine

/-- NOP (43_control.md R220). -/
def execNop (s : State) : Host.Outcome State Fault Refusal := finishOk s

/-- ABORT (43_control.md R221). -/
def execAbort (s : State) : Host.Outcome State Fault Refusal :=
  finishOk (setFlags false false { s with mode := .idle })

/-- SOFT_RESET (43_control.md R222). -/
def execSoftReset (s : State) : Host.Outcome State Fault Refusal :=
  finishOk (resetRegisters s)

end Sys2Proof.Machine
end

