-- ==== Sys2Proof/Machine/Decoder.lean ====
section
/-! DEFINITION. The decoder commands (42_decoder.md): DEC_START, DEC_NEXT. -/

namespace Sys2Proof.Machine

/-- DEC_START (42_decoder.md R190 to R192). The flag clears come before the sentinel check. -/
def execDecStart (s : State) : Host.Outcome State Fault Refusal :=
  if s.mode ≠ .idle then raiseError .badMode s
  else
    let s := setFlags false false s
    let d := unpack (packet s) s.byteOrder
    match firstOne d with
    | none => raiseError .noSentinel s
    | some z =>
      finishOk { s with dbits := d, decPos := BitVec.ofNat 32 (z + 1), symCount := 0#32, mode := .decoding }

/-- The loop of DEC_NEXT (42_decoder.md R193): try the candidates of `k`, `k+1`, … bits at position `p` of `d`, `fuel` of
them, and give the entry's index and the length of the first that is a codeword; `none` where the loop raises DECODE. -/
def greedyMatch (t : Table) (d : Bits) (p : Nat) : (fuel k : Nat) → Option (Nat × Nat)
  | 0, _ => none
  | fuel + 1, k =>
    if d.length < p + k then none
    else
      match codeLookup t k (bitsToNat (slice d p (p + k))) with
      | some i => some (i, k)
      | none => greedyMatch t d p fuel (k + 1)

/-- DEC_NEXT (42_decoder.md R193). -/
def execDecNext (s : State) : Host.Outcome State Fault Refusal :=
  if s.mode ≠ .decoding then raiseError .badMode s
  else if s.decPos.toNat = s.dbits.length then
    finishOk { s with symValid := false, done := true, mode := .idle }
  else
    match greedyMatch s.table s.dbits s.decPos.toNat s.config.maxLen 1 with
    | none => raiseError .decode { s with symValid := false }
    | some (i, k) =>
      finishOk { s with decSym := (entryAt s.table i).sym, decPos := BitVec.ofNat 32 (s.decPos.toNat + k),
                        symCount := s.symCount + 1#32, symValid := true }

end Sys2Proof.Machine
end

