-- ==== Sys2Proof/Machine/Operands.lean ====
section
/-! DEFINITION. The operands a command reads from the operand registers (30_encoding.md R103 to R106), and what a host
write stores there (10_state.md R39, R41, R42). -/

namespace Sys2Proof.Machine

/-- The index operand `IDX = TBL_IDX[15:0]` (30_encoding.md R106). -/
def idxOperand (s : State) : Nat := s.tblIdx.toNat

/-- The symbol operand, ARG_SYM (30_encoding.md R104). -/
def symOperand (s : State) : Word := s.argSym

/-- The length operand `TBL_LEN.LEN` (30_encoding.md R105). -/
def lenOperand (s : State) : Nat := s.tblLen.toNat

/-- The codeword operand `ARG_CODE & (2^len - 1)` (30_encoding.md R105, 40_table.md R134). -/
def codeOperand (s : State) : Word := s.argCode &&& BitVec.ofNat 32 (2 ^ lenOperand s - 1)

/-- The part of a written word that ARG_SYM keeps: `d & (2^SW - 1)` (10_state.md R39). -/
def symMask (c : Config) (d : Word) : Word := d &&& BitVec.ofNat 32 (2 ^ c.symBits - 1)

/-- Bits [15:0] of a written word, which TBL_IDX keeps (10_state.md R41). -/
def idxField (d : Word) : BitVec 16 := d.extractLsb' 0 16

/-- Bits [5:0] of a written word, which TBL_LEN.LEN keeps (10_state.md R42). -/
def lenField (d : Word) : BitVec 6 := d.extractLsb' 0 6

/-- Bit [0] of a written word, which CTRL.BYTE_ORDER keeps (10_state.md R35). -/
def byteOrderField (d : Word) : ByteOrder := if d.getLsbD 0 then .little else .big

/-- Bits [7:0] of a written word, which a PBUF byte keeps (20_memory.md R74). -/
def byteField (d : Word) : Byte := d.extractLsb' 0 8

end Sys2Proof.Machine
end

