-- ==== Sys2Proof/Machine/Encoder.lean ====
section
/-! DEFINITION. The encoder commands (41_encoder.md): ENC_START, ENC_PUT, ENC_FINISH. -/

namespace Sys2Proof.Machine

/-- ENC_START (41_encoder.md R161): the bit sequence starts with the sentinel. -/
def execEncStart (s : State) : Host.Outcome State Fault Refusal :=
  if s.mode ≠ .idle then raiseError .badMode s
  else finishOk (setFlags false false { s with ebits := [true], symCount := 0#32, mode := .encoding })

/-- The bit-string of an entry's codeword (00_scope.md R10). -/
def codeword (e : Entry) : Bits := bits e.code.toNat e.len.toNat

/-- ENC_PUT (41_encoder.md R162). -/
def execEncPut (s : State) : Host.Outcome State Fault Refusal :=
  if s.mode ≠ .encoding then raiseError .badMode s
  else
    match symLookup s.table (symOperand s) with
    | none => raiseError .noSymbol s
    | some i =>
      if s.config.capBits < s.ebits.length + (entryAt s.table i).len.toNat then raiseError .overflow s
      else finishOk { s with ebits := s.ebits ++ codeword (entryAt s.table i), symCount := s.symCount + 1#32 }

/-- ENC_FINISH (41_encoder.md R163). On EMPTY the flags stay as they were; in ENCODING they are already 0 (DEDUCED, log
entry 7). -/
def execEncFinish (s : State) : Host.Outcome State Fault Refusal :=
  if s.mode ≠ .encoding then raiseError .badMode s
  else if s.symCount = 0#32 then raiseError .empty s
  else
    let b := pack s.ebits s.byteOrder
    finishOk (setFlags false true
      { s with pbuf := writeBytes s.pbuf 0 b, pktLen := BitVec.ofNat 32 b.length, mode := .idle })

end Sys2Proof.Machine
end

