-- ==== Sys2Proof/Machine/TableCommands.lean ====
section
/-! DEFINITION. The table commands (40_table.md): TBL_CLEAR, TBL_WRITE, TBL_READ, TBL_INVALIDATE. -/

namespace Sys2Proof.Machine

/-- TBL_CLEAR (40_table.md R133). -/
def execTblClear (s : State) : Host.Outcome State Fault Refusal :=
  if s.mode ≠ .idle then raiseError .badMode s
  else if s.config.tableRom then raiseError .tableRo s
  else finishOk { s with table := [] }

/-- The entry TBL_WRITE writes: `{valid=1, sym=s, len=l, code=c}` (40_table.md R134). -/
def newEntry (s : State) : Entry :=
  { valid := true, sym := symOperand s, len := s.tblLen, code := codeOperand s }

/-- TBL_WRITE (40_table.md R134). -/
def execTblWrite (s : State) : Host.Outcome State Fault Refusal :=
  if s.mode ≠ .idle then raiseError .badMode s
  else if s.config.tableRom then raiseError .tableRo s
  else if s.config.tableDepth ≤ idxOperand s then raiseError .badIndex s
  else if lenOperand s = 0 ∨ s.config.maxLen < lenOperand s then raiseError .badLen s
  else if symbolTaken s.table (idxOperand s) (symOperand s) then raiseError .dupSymbol s
  else if prefixTaken s.table (idxOperand s) (lenOperand s) (codeOperand s).toNat then raiseError .prefixConflict s
  else finishOk { s with table := putEntry s.table (idxOperand s) (newEntry s) }

/-- TBL_READ (40_table.md R135). -/
def execTblRead (s : State) : Host.Outcome State Fault Refusal :=
  if s.config.tableDepth ≤ idxOperand s then raiseError .badIndex s
  else
    let e := entryAt s.table (idxOperand s)
    finishOk { s with argSym := e.sym, argCode := e.code, tblLen := e.len, tblLenValid := e.valid }

/-- TBL_INVALIDATE (40_table.md R136). -/
def execTblInvalidate (s : State) : Host.Outcome State Fault Refusal :=
  if s.mode ≠ .idle then raiseError .badMode s
  else if s.config.tableRom then raiseError .tableRo s
  else if s.config.tableDepth ≤ idxOperand s then raiseError .badIndex s
  else finishOk { s with table := putEntry s.table (idxOperand s) Entry.empty }

end Sys2Proof.Machine
end

