-- ==== Sys2Proof/Machine/Dispatch.lean ====
section
/-! DEFINITION. The meaning of every command, one arm per constructor of Instr (30_encoding.md R101). -/

namespace Sys2Proof.Machine

def exec (i : Instr) (s : State) : Host.Outcome State Fault Refusal :=
  match i with
  | .nop => Sys2Proof.Machine.execNop s
  | .tblClear => Sys2Proof.Machine.execTblClear s
  | .tblWrite => Sys2Proof.Machine.execTblWrite s
  | .tblRead => Sys2Proof.Machine.execTblRead s
  | .tblInvalidate => Sys2Proof.Machine.execTblInvalidate s
  | .encStart => Sys2Proof.Machine.execEncStart s
  | .encPut => Sys2Proof.Machine.execEncPut s
  | .encFinish => Sys2Proof.Machine.execEncFinish s
  | .decStart => Sys2Proof.Machine.execDecStart s
  | .decNext => Sys2Proof.Machine.execDecNext s
  | .abort => Sys2Proof.Machine.execAbort s
  | .softReset => Sys2Proof.Machine.execSoftReset s

end Sys2Proof.Machine
end

