-- ==== Sys2Proof/Machine/Bus.lean ====
section
/-! DEFINITION. The host bus (20_memory.md): the address map, what each read returns, what each write does, and the CMD
write, which runs a command. -/

namespace Sys2Proof.Machine

/-- The registers of the register window (10_state.md R30). -/
inductive Reg where
  | id
  | config
  | cfgDepth
  | cfgPbuf
  | ctrl
  | status
  | cmd
  | argSym
  | argCode
  | tblIdx
  | tblLen
  | pktLen
  | encBits
  | symCount
  | decSym
  | decPos
  | tblCount
  deriving DecidableEq, Repr

/-- The byte offset of a register (10_state.md R30). -/
def Reg.offset : Reg → Nat
  | .id => 0x00
  | .config => 0x04
  | .cfgDepth => 0x08
  | .cfgPbuf => 0x0C
  | .ctrl => 0x10
  | .status => 0x14
  | .cmd => 0x18
  | .argSym => 0x1C
  | .argCode => 0x20
  | .tblIdx => 0x24
  | .tblLen => 0x28
  | .pktLen => 0x2C
  | .encBits => 0x30
  | .symCount => 0x34
  | .decSym => 0x38
  | .decPos => 0x3C
  | .tblCount => 0x40

/-- What a word address reaches (20_memory.md R72). -/
inductive Target where
  | reg (r : Reg)
  | reserved
  | pbuf (i : Nat)
  | unmapped
  deriving DecidableEq, Repr

/-- The address of PBUF[0] (20_memory.md R72). -/
def pbufBase : Nat := 0x10000

/-- The register at a word offset (10_state.md R30); the rest of the window is reserved. -/
def regTarget (a : Nat) : Target :=
  match a with
  | 0x00 => .reg .id
  | 0x04 => .reg .config
  | 0x08 => .reg .cfgDepth
  | 0x0C => .reg .cfgPbuf
  | 0x10 => .reg .ctrl
  | 0x14 => .reg .status
  | 0x18 => .reg .cmd
  | 0x1C => .reg .argSym
  | 0x20 => .reg .argCode
  | 0x24 => .reg .tblIdx
  | 0x28 => .reg .tblLen
  | 0x2C => .reg .pktLen
  | 0x30 => .reg .encBits
  | 0x34 => .reg .symCount
  | 0x38 => .reg .decSym
  | 0x3C => .reg .decPos
  | 0x40 => .reg .tblCount
  | _ => .reserved

/-- `addr & ~3`: the word a transaction acts on (20_memory.md R71). -/
def wordAddr (addr : Word) : Nat := (addr &&& ~~~3#32).toNat

/-- The address map (20_memory.md R72). -/
def target (c : Config) (addr : Word) : Target :=
  if wordAddr addr < pbufBase then regTarget (wordAddr addr)
  else if (wordAddr addr - pbufBase) / 4 < c.pbufBytes then .pbuf ((wordAddr addr - pbufBase) / 4)
  else .unmapped

/-- CONFIG as the host reads it: MAX_LEN in [13:8], TABLE_ROM in [4], ORDER in [2:0] (10_state.md R32). -/
def configWord (c : Config) : Word :=
  0#18 ++ BitVec.ofNat 6 c.maxLen ++ 0#3 ++ BitVec.ofBool c.tableRom ++ 0#1 ++ BitVec.ofNat 3 c.order

/-- TBL_LEN as the host reads it: VALID in [31], LEN in [5:0] (10_state.md R42). -/
def tblLenWord (s : State) : Word :=
  BitVec.ofBool s.tblLenValid ++ 0#25 ++ s.tblLen

/-- CTRL as the host reads it: BYTE_ORDER in [0] (10_state.md R35). -/
def ctrlWord (bo : ByteOrder) : Word :=
  match bo with
  | .big => 0#32
  | .little => 1#32

/-- What a read of a register returns (10_state.md R31 to R50). -/
def readReg (s : State) : Reg → Word
  | .id => 0x48554646#32
  | .config => configWord s.config
  | .cfgDepth => BitVec.ofNat 32 s.config.tableDepth
  | .cfgPbuf => BitVec.ofNat 32 s.config.pbufBytes
  | .ctrl => ctrlWord s.byteOrder
  | .status => statusWord s
  | .cmd => 0#32
  | .argSym => s.argSym
  | .argCode => s.argCode
  | .tblIdx => s.tblIdx.setWidth 32
  | .tblLen => tblLenWord s
  | .pktLen => s.pktLen
  | .encBits => BitVec.ofNat 32 s.ebits.length
  | .symCount => s.symCount
  | .decSym => s.decSym
  | .decPos => s.decPos
  | .tblCount => BitVec.ofNat 32 (validCount s.table)

/-- `MemRead(addr, 4)` (20_memory.md R70 to R74): reserved and unmapped addresses read 0. -/
def busRead (s : State) (addr : Word) : Word :=
  match target s.config addr with
  | .reg r => readReg s r
  | .pbuf i => (readByte s i).setWidth 32
  | .reserved | .unmapped => 0#32

/-- A write of `w` to CMD (10_state.md R38): run the command, or raise ILLEGAL_CMD for an illegal word (43_control.md
R223). -/
def writeCmd (w : Word) (s : State) : Host.Outcome State Fault Refusal :=
  match decode w with
  | .ok i => exec i s
  | .error _ => raiseError .illegalCmd s

/-- A write to CTRL (10_state.md R35, 20_memory.md R76). -/
def writeCtrl (d : Word) (s : State) : State :=
  if s.mode ≠ .idle then raised .badMode s else { s with byteOrder := byteOrderField d }

/-- A write to PKT_LEN (10_state.md R43, 20_memory.md R76). -/
def writePktLen (d : Word) (s : State) : State :=
  if s.mode ≠ .idle then raised .badMode s
  else if s.config.pbufBytes < d.toNat then raised .range s
  else { s with pktLen := d }

/-- A write to the word of `PBUF[i]` (20_memory.md R74, R75). -/
def writePbuf (i : Nat) (d : Word) (s : State) : State :=
  if s.mode ≠ .idle then raised .badMode s else { s with pbuf := writeByte s.pbuf i (byteField d) }

/-- A write to a register; a write to a read-only register is ignored (10_state.md R30 to R50, 20_memory.md R77). -/
def writeReg (r : Reg) (d : Word) (s : State) : Host.Outcome State Fault Refusal :=
  match r with
  | .cmd => writeCmd d s
  | .ctrl => .next (writeCtrl d s)
  | .argSym => .next { s with argSym := symMask s.config d }
  | .argCode => .next { s with argCode := d }
  | .tblIdx => .next { s with tblIdx := idxField d }
  | .tblLen => .next { s with tblLen := lenField d }
  | .pktLen => .next (writePktLen d s)
  | .id | .config | .cfgDepth | .cfgPbuf | .status | .encBits | .symCount | .decSym | .decPos | .tblCount => .next s

/-- `MemWrite(addr, 4, d)` (20_memory.md R70 to R78): writes to reserved and unmapped addresses are ignored. -/
def busWrite (addr d : Word) (s : State) : Host.Outcome State Fault Refusal :=
  match target s.config addr with
  | .reg r => writeReg r d s
  | .pbuf i => .next (writePbuf i d s)
  | .reserved | .unmapped => .next s

/-- The word a read returned reaches the host (00_scope.md R14). -/
def respond (v : Word) (s : State) : State := { s with hostOut := s.hostOut ++ [v] }

/-- What one event from outside does to the block (20_memory.md R70, R79, 70_reset_and_hazards.md R300). -/
def deliver (ev : HostEvent) (s : State) : Host.Outcome State Fault Refusal :=
  match ev with
  | .read addr => .next (respond (busRead s addr) s)
  | .write addr d => busWrite addr d s
  | .powerOn => .next (powerOnReset s)

/-- The address of CMD as a bus word (10_state.md R30). -/
def cmdAddr : Word := BitVec.ofNat 32 (Reg.offset .cmd)

end Sys2Proof.Machine
end

