-- ==== Sys2Proof/Machine/Step.lean ====
section
/-! DEFINITION. One step: the block answers the host's next access (00_scope.md R6, 20_memory.md R70, R83). -/

namespace Sys2Proof.Machine

/-- One step takes the host's next event. Without one the block does nothing: it never acts by itself (00_scope.md R6,
log entry 1). -/
def step (s : State) : Host.Outcome State Fault Refusal :=
  match s.hostIn with
  | [] => .next s
  | ev :: rest => deliver ev { s with hostIn := rest }

/-- The host's next access is the write of the command word `w` to CMD (10_state.md R38, log entry 1). -/
def State.withFetchWord (s : State) (nbits w : Nat) : State :=
  { s with hostIn := .write cmdAddr (BitVec.ofNat 32 (w % 2 ^ nbits)) :: s.hostIn }

end Sys2Proof.Machine
end

