-- ==== Sys2Proof/Machine/HostSyntax.lean ====
section
/-! DEFINITION. The notation for host programs (30_encoding.md R108, R109): each form is the list of transactions it
stands for. It adds nothing to the machine. -/

namespace Sys2Proof.Machine

/-- `wr <REG>, <value>` (30_encoding.md R108). -/
def wr (r : Reg) (v : Word) : HostEvent := .write (BitVec.ofNat 32 r.offset) v

/-- `rd <REG>` (30_encoding.md R108). -/
def rd (r : Reg) : HostEvent := .read (BitVec.ofNat 32 r.offset)

/-- The address of the word of PBUF[i] (20_memory.md R72). -/
def pbufAddr (i : Nat) : Word := BitVec.ofNat 32 (pbufBase + 4 * i)

/-- `wr PBUF[<i>], <value>` (30_encoding.md R108). -/
def wrPbuf (i : Nat) (v : Word) : HostEvent := .write (pbufAddr i) v

/-- `rd PBUF[<i>]` (30_encoding.md R108). -/
def rdPbuf (i : Nat) : HostEvent := .read (pbufAddr i)

/-- `<MNEMONIC>`: the write of the command's word to CMD (30_encoding.md R108). -/
def cmd (i : Instr) : HostEvent := wr .cmd (encode i)

/-- `tblw i, s, c, l` (30_encoding.md R109). -/
def tblw (i s c l : Word) : List HostEvent :=
  [wr .tblIdx i, wr .argSym s, wr .argCode c, wr .tblLen l, cmd .tblWrite]

/-- `tblr i` (30_encoding.md R109). -/
def tblr (i : Word) : List HostEvent := [wr .tblIdx i, cmd .tblRead]

/-- `put s` (30_encoding.md R109). -/
def put (s : Word) : List HostEvent := [wr .argSym s, cmd .encPut]

/-- The PBUF writes of `ldpkt`, from index `i` on (30_encoding.md R109). -/
def ldbytes (i : Nat) : List Byte → List HostEvent
  | [] => []
  | b :: bs => wrPbuf i (b.setWidth 32) :: ldbytes (i + 1) bs

/-- `ldpkt b0, …, b{n-1}` (30_encoding.md R109). -/
def ldpkt (bs : List Byte) : List HostEvent :=
  ldbytes 0 bs ++ [wr .pktLen (BitVec.ofNat 32 bs.length)]

/-- `order bo` (30_encoding.md R109). -/
def order (bo : ByteOrder) : List HostEvent := [wr .ctrl (ctrlWord bo)]

end Sys2Proof.Machine
end

