-- ==== Sys2Proof/Machine/HostReference.lean ====
section
/-! DEFINITION. The host reference algorithms of 49_host_reference.md. They are host software, not part of the block
(00_scope.md R5), and `step` uses none of them: they make the table contents and the packets of whole encodes (log
entry 15). -/

namespace Sys2Proof.Machine

/-- The number of filler bytes (49_host_reference.md R241). -/
def padLen (order len : Nat) : Nat := (order - len % order) % order

/-- The padded input (49_host_reference.md R241). -/
def padInput (order : Nat) (fill : Byte) (b : List Byte) : List Byte :=
  b ++ List.replicate (padLen order b.length) fill

/-- A decoded output without its last `n` bytes (49_host_reference.md R249). Of an output shorter than `n`, which R249
says nothing about, none is left (DESIGN CHOICE, log entry 18). -/
def stripPadding (n : Nat) (b : List Byte) : List Byte := b.take (b.length - n)

/-- The symbols of a padded input, `order` bytes each (49_host_reference.md R242). -/
def splitSymbols (order : Nat) (b : List Byte) : List (List Byte) :=
  (List.range (b.length / order)).map (fun k => (b.drop (k * order)).take order)

/-- `symval` (30_encoding.md R104): byte k of a symbol in bits [8k+7:8k]. -/
def symval (b : List Byte) : Word :=
  BitVec.ofNat 32 (b.foldr (fun x v => x.toNat + 256 * v) 0)

/-- The `order` bytes of a symbol value, byte 0 first (30_encoding.md R104, 49_host_reference.md R249). -/
def symBytes (order : Nat) (v : Word) : List Byte :=
  (List.range order).map (fun k => BitVec.ofNat 8 (v.toNat >>> (8 * k)))

/-- One more occurrence of a symbol in a list of counts (49_host_reference.md R242). -/
def countOne : List (List Byte × Nat) → List Byte → List (List Byte × Nat)
  | [], s => [(s, 1)]
  | (t, n) :: l, s => if t = s then (t, n + 1) :: l else (t, n) :: countOne l s

/-- `x` placed after every entry whose count is at least its own. -/
def insertDescending {α : Type} (x : α × Nat) : List (α × Nat) → List (α × Nat)
  | [] => [x]
  | y :: l => if y.2 < x.2 then x :: y :: l else y :: insertDescending x l

/-- The stable sort by count, descending (49_host_reference.md R242, R244). -/
def sortDescending {α : Type} (l : List (α × Nat)) : List (α × Nat) :=
  l.foldl (fun acc x => insertDescending x acc) []

/-- The sorted frequency entries (49_host_reference.md R242). -/
def frequencies (symbols : List (List Byte)) : List (List Byte × Nat) :=
  sortDescending (symbols.foldl countOne [])

/-- The nodes of the tree (49_host_reference.md R244). -/
inductive Tree where
  | leaf (symbol : List Byte)
  | internal (left right : Tree)
  deriving DecidableEq, Repr

/-- One merge: `key1` is the last entry and `key2` the one before it (49_host_reference.md R244, R245). -/
def mergeOnce (l : List (Tree × Nat)) : List (Tree × Nat) :=
  match l.reverse with
  | (t1, n1) :: (t2, n2) :: rest => sortDescending (rest.reverse ++ [(.internal t1 t2, n1 + n2)])
  | _ => l

/-- Tree building (49_host_reference.md R244): every merge shortens the list by one. -/
def mergeAll : Nat → List (Tree × Nat) → List (Tree × Nat)
  | 0, l => l
  | fuel + 1, l => mergeAll fuel (mergeOnce l)

/-- The root of the tree of a list of frequency entries (49_host_reference.md R244). -/
def buildTree (freqs : List (List Byte × Nat)) : Option Tree :=
  ((mergeAll freqs.length (freqs.map (fun p => (Tree.leaf p.1, p.2)))).head?).map (·.1)

/-- The walk of 49_host_reference.md R246: 1 to the left, 0 to the right. -/
def treeCodes : Tree → Bits → List (List Byte × Bits)
  | .leaf s, acc => [(s, acc)]
  | .internal l r, acc => treeCodes l (acc ++ [true]) ++ treeCodes r (acc ++ [false])

/-- The code table of a tree; a single leaf gets "0" (49_host_reference.md R246, R247). -/
def generateCodes : Tree → List (List Byte × Bits)
  | .leaf s => [(s, [false])]
  | .internal l r => treeCodes (.internal l r) []

/-- The codeword of a symbol in a generated code. -/
def codeOf (codes : List (List Byte × Bits)) (s : List Byte) : Bits := (codes.lookup s).getD []

/-- The code table of a padded input in the order of R242 (49_host_reference.md R242 to R248). -/
def hostCodes (symbols : List (List Byte)) : List (List Byte × Bits) :=
  match buildTree (frequencies symbols) with
  | none => []
  | some t => (frequencies symbols).map (fun p => (p.1, codeOf (generateCodes t) p.1))

/-- The ways the host reference fails (49_host_reference.md R243, R250, R253). -/
inductive HostError where
  /-- `EmptyInputError` (R243). -/
  | emptyInput
  /-- `InvalidHeaderError`: the terminator is missing or the header is malformed (R250, 60_exceptions.md R271). -/
  | invalidHeader
  /-- `CorruptContainerError`: the body cannot be paired exactly with the code table (R250). `r` is the RESULT that shows
  it: NO_SENTINEL, or DECODE (60_exceptions.md R271, 90_conflicts.md C3; DEDUCED, log entry 19). -/
  | corruptContainer (r : Result)
  /-- A non-OK RESULT of the block (R253). -/
  | block (r : Result)
  /-- The block gave no answer. It never happens (60_exceptions.md R287). -/
  | noAnswer
  deriving DecidableEq, Repr

/-- Issue events in order, reading RESULT after each: the first that is not OK ends the operation (49_host_reference.md
R248, R251 to R253). A rejected register or PBUF write ends it too (60_exceptions.md R270). -/
def issue : List HostEvent → State → Except HostError State
  | [], s => .ok s
  | ev :: evs, s =>
    match deliver ev s with
    | .next t => if t.result = .ok then issue evs t else .error (.block t.result)
    | .fault _ => .error .noAnswer
    | .refused _ => .error .noAnswer

/-- The error of a table entry whose index or length the operand registers cannot hold: TBL_IDX keeps 16 bits and TBL_LEN
6. It is the error the block gives a smaller one that is out of range (DESIGN CHOICE, log entry 16). -/
def entryError (k : Nat) (w : Bits) : Option Result :=
  if 2 ^ 16 ≤ k then some .badIndex else if 2 ^ 6 ≤ w.length then some .badLen else none

/-- The `tblw` of one table entry (49_host_reference.md R248). -/
def loadEntry (k : Nat) (p : List Byte × Bits) : List HostEvent :=
  tblw (BitVec.ofNat 32 k) (symval p.1) (BitVec.ofNat 32 (bitsToNat p.2)) (BitVec.ofNat 32 p.2.length)

/-- One `tblw` per entry, from index `k` on (49_host_reference.md R248). -/
def loadEntries : Nat → List (List Byte × Bits) → State → Except HostError State
  | _, [], s => .ok s
  | k, p :: l, s =>
    match entryError k p.2 with
    | some r => .error (.block r)
    | none =>
      match issue (loadEntry k p) s with
      | .error e => .error e
      | .ok t => loadEntries (k + 1) l t

/-- Loading the table: TBL_CLEAR, then the entries (49_host_reference.md R248). R248 has the host do so in every build and
70_reset_and_hazards.md R305 only where TABLE_ROM is false; the model follows R248, so on a ROM build loading ends with
TABLE_RO (DESIGN CHOICE, log entry 17). -/
def loadTable (codes : List (List Byte × Bits)) (s : State) : Except HostError State :=
  match issue [cmd .tblClear] s with
  | .error e => .error e
  | .ok t => loadEntries 0 codes t

/-- What a container says: the padding, the ordered pairs, the byte order and the body (49_host_reference.md R250). -/
structure Contents where
  padding   : Nat
  codes     : List (List Byte × Bits)
  byteOrder : ByteOrder
  body      : List Byte
  deriving DecidableEq, Repr

/-- One field of a container's header (49_host_reference.md R250). A pair keeps its symbol's bytes whole, as the
length-prefixed or escaped forms do. How a field is laid out in bytes is left open (log entry 15). -/
inductive HeaderField where
  | padding (n : Nat)
  | pair (symbol : List Byte) (codeword : Bits)
  | terminator
  deriving DecidableEq, Repr

/-- A container: its header fields, its body, and the byte order its format version fixes (49_host_reference.md R250). -/
structure Container where
  byteOrder : ByteOrder
  header    : List HeaderField
  body      : List Byte
  deriving DecidableEq, Repr

/-- Writing the container: `padding_len`, the pairs in order, the terminator, then the body (49_host_reference.md R250). -/
def writeContainer (k : Contents) : Container :=
  { byteOrder := k.byteOrder, body := k.body,
    header := .padding k.padding :: (k.codes.map (fun p => .pair p.1 p.2) ++ [.terminator]) }

/-- The pairs of a header, up to the terminator that ends it (49_host_reference.md R250). -/
def readPairs : List HeaderField → Option (List (List Byte × Bits))
  | [] => none
  | .terminator :: [] => some []
  | .terminator :: _ :: _ => none
  | .pair s w :: l => (readPairs l).map ((s, w) :: ·)
  | .padding _ :: _ => none

/-- The fields of a header fit a block of the given ORDER: fewer than ORDER filler bytes (49_host_reference.md R241) and
symbols of ORDER bytes (R242) (DESIGN CHOICE, log entry 16). -/
def Contents.headerFits (order : Nat) (k : Contents) : Bool :=
  decide (k.padding < order) && k.codes.all (fun p => p.1.length == order)

/-- Parsing a container: a missing terminator or a malformed header is `InvalidHeaderError` (49_host_reference.md R250). -/
def readContainer (order : Nat) (c : Container) : Except HostError Contents :=
  match c.header with
  | .padding n :: fields =>
    match readPairs fields with
    | none => .error .invalidHeader
    | some codes =>
      let k : Contents := { padding := n, codes := codes, byteOrder := c.byteOrder, body := c.body }
      if k.headerFits order then .ok k else .error .invalidHeader
  | _ => .error .invalidHeader

/-- Encode an input through the block and write the container (49_host_reference.md R240, R243, R248, R250, R251). In a ROM build it ends with TABLE_RO,
as `loadTable` says (DESIGN CHOICE, log entry 17). -/
def hostEncode (fill : Byte) (bo : ByteOrder) (input : List Byte) (s : State) : Except HostError (Container × State) :=
  let symbols := splitSymbols s.config.order (padInput s.config.order fill input)
  if symbols = [] then .error .emptyInput
  else
    let codes := hostCodes symbols
    match loadTable codes s with
    | .error e => .error e
    | .ok t =>
      match issue (order bo ++ cmd .encStart :: (symbols.flatMap (fun b => put (symval b)) ++ [cmd .encFinish])) t with
      | .error e => .error e
      | .ok u =>
        .ok (writeContainer
          { padding := padLen s.config.order input.length, codes := codes, byteOrder := bo, body := packet u }, u)

/-- DEC_NEXT until DONE, collecting DEC_SYM whenever SYM_VALID = 1 (49_host_reference.md R252). -/
def decodeLoop : Nat → State → Except HostError (List Word × State)
  | 0, _ => .error .noAnswer
  | fuel + 1, s =>
    match issue [cmd .decNext] s with
    | .error e => .error e
    | .ok t =>
      if t.done then .ok ([], t)
      else if t.symValid then
        match decodeLoop fuel t with
        | .error e => .error e
        | .ok (l, u) => .ok (t.decSym :: l, u)
      else .error .noAnswer

/-- Writing a body into PBUF and PKT_LEN (49_host_reference.md R252). A body whose bytes have no 32-bit addresses gives
RANGE, as every body longer than PBUF does (DESIGN CHOICE, log entry 16). -/
def loadBody (body : List Byte) (s : State) : Except HostError State :=
  if 2 ^ 32 < pbufBase + 4 * body.length then .error (.block .range) else issue (ldpkt body) s

/-- The host's error for an error met while decoding a body: NO_SENTINEL and DECODE say that the body cannot be paired
with the code table (49_host_reference.md R250; DEDUCED, log entry 19). -/
def bodyError : HostError → HostError
  | .block r => if r = .noSentinel ∨ r = .decode then .corruptContainer r else .block r
  | .emptyInput => .emptyInput
  | .invalidHeader => .invalidHeader
  | .corruptContainer r => .corruptContainer r
  | .noAnswer => .noAnswer

/-- Decoding the body that lies in PBUF: the byte order, DEC_START, and DEC_NEXT until DONE (49_host_reference.md R252). -/
def decodeBody (k : Contents) (s : State) : Except HostError (List Word × State) :=
  match issue (order k.byteOrder ++ [cmd .decStart]) s with
  | .error e => .error (bodyError e)
  | .ok t =>
    match decodeLoop (8 * k.body.length + 1) t with
    | .error e => .error (bodyError e)
    | .ok r => .ok r

/-- Parse a container, decode it through the block and strip the padding (49_host_reference.md R249, R250, R252). In a ROM
build it ends with TABLE_RO, as `loadTable` says (DESIGN CHOICE, log entry 17). -/
def hostDecode (c : Container) (s : State) : Except HostError (List Byte × State) :=
  match readContainer s.config.order c with
  | .error e => .error e
  | .ok k =>
    match loadTable k.codes s with
    | .error e => .error e
    | .ok t =>
      match loadBody k.body t with
      | .error e => .error e
      | .ok u =>
        match decodeBody k u with
        | .error e => .error e
        | .ok (syms, w) => .ok (stripPadding k.padding (syms.flatMap (symBytes s.config.order)), w)

end Sys2Proof.Machine
end

