-- ==== Sys2Proof/Safety.lean ====
section
/-! DEFINITION. What every reachable state satisfies, in the terms the statements use. -/

namespace Sys2Proof.Machine

/-- The code table's invariant in the words of 10_state.md R45: T1 to T5, and no valid entry beyond TABLE_DEPTH. -/
structure TableInvariant (c : Config) (t : Table) : Prop where
  depth : ∀ i, (entryAt t i).valid = true → i < c.tableDepth
  t1 : ∀ i, (entryAt t i).valid = true → 1 ≤ (entryAt t i).len.toNat ∧ (entryAt t i).len.toNat ≤ c.maxLen
  t2 : ∀ i, (entryAt t i).valid = true → (entryAt t i).code.toNat < 2 ^ (entryAt t i).len.toNat
  t3 : ∀ i j, i ≠ j → (entryAt t i).valid = true → (entryAt t j).valid = true → (entryAt t i).sym ≠ (entryAt t j).sym
  t4 : ∀ i j, i ≠ j → (entryAt t i).valid = true → (entryAt t j).valid = true →
    entryInPrefix (entryAt t i) (entryAt t j) = false
  t5 : ∀ i, (entryAt t i).valid = false → entryAt t i = Entry.empty

/-- The invariant of the machine: the build is legal, every register is in its range, and the mode, the flags and the
bit sequences agree. -/
structure Inv (s : State) : Prop where
  /-- The build is legal (00_scope.md R7). -/
  config : Config.wf s.config
  /-- The code table meets T1 to T5 (10_state.md R45). -/
  table : Table.wf s.config s.table
  /-- A ROM table is its image (40_table.md R137). -/
  rom : s.config.tableRom = true → s.table = s.config.tableInit
  /-- PBUF's list is canonical and inside the buffer (10_state.md R51). -/
  pbuf : Memory.wf s.pbuf ∧ ∀ p ∈ s.pbuf, p.1 < s.config.pbufBytes
  /-- ARG_SYM and DEC_SYM hold SW bits (10_state.md R39, R49). -/
  argSym : s.argSym.toNat < 2 ^ s.config.symBits
  decSym : s.decSym.toNat < 2 ^ s.config.symBits
  /-- PKT_LEN is at most PBUF_BYTES (10_state.md R43). -/
  pktLen : s.pktLen.toNat ≤ s.config.pbufBytes
  /-- EBITS and DBITS fit the buffer (10_state.md R52, R53), and DBITS is whole bytes. -/
  ebits : s.ebits.length ≤ s.config.capBits
  dbits : s.dbits.length ≤ s.config.capBits ∧ 8 ∣ s.dbits.length
  /-- DEC_POS is inside DBITS (10_state.md R50). -/
  decPos : s.decPos.toNat ≤ s.dbits.length
  /-- SYM_COUNT is at most 8*PBUF_BYTES (10_state.md R58). -/
  symCount : s.symCount.toNat ≤ s.config.capBits
  /-- In ENCODING, EBITS holds the sentinel and at least one bit for each symbol, and the flags are 0 (41_encoder.md
  R161, R162). -/
  encoding : s.mode = .encoding →
    s.ebits.head? = some true ∧ s.symCount.toNat < s.ebits.length ∧ s.symValid = false ∧ s.done = false
  /-- In DECODING, the sentinel and at least one bit for each symbol lie before DEC_POS, and DONE is 0 (42_decoder.md
  R192, R193). -/
  decoding : s.mode = .decoding → s.symCount.toNat < s.decPos.toNat ∧ s.done = false
  /-- SYM_VALID is 1 only in DECODING (10_state.md R60). -/
  symValid : s.symValid = true → s.mode = .decoding

/-- The encoded payload of 41_encoder.md R164: the sentinel, then each symbol's codeword in order. -/
def encodedPayload (t : Table) (syms : List Word) : Bits :=
  true :: syms.flatMap (fun x => codeword (entryAt t ((symLookup t x).getD 0)))

/-- The host's accesses of one encode (41_encoder.md R160): ENC_START, one `put` per symbol, ENC_FINISH. -/
def encodeEvents (syms : List Word) : List HostEvent :=
  cmd .encStart :: (syms.flatMap put ++ [cmd .encFinish])

/-- The host's accesses of one decode of `m` symbols (42_decoder.md R196): DEC_START, `m` times DEC_NEXT with STATUS and
DEC_SYM read after it, and the DEC_NEXT that reports the end, with STATUS read after it. -/
def decodeEvents (m : Nat) : List HostEvent :=
  cmd .decStart :: ((List.replicate m [cmd .decNext, rd .status, rd .decSym]).flatten ++ [cmd .decNext, rd .status])

/-- A safe state: the next step has a next state, neither a fault nor a refusal. -/
def Safe (s : State) : Prop := ∃ t, step s = .next t

end Sys2Proof.Machine
end

