-- ==== Sys2Proof/Certificates/Slice0/Obligations.lean ====
section
/-! DEFINITION. The statements of this model, one per numbered rule or group of rules of spec/. -/

section

open Sys2Proof Sys2Proof.Machine

/-! ## Command words and the step -/

/-- 30_encoding.md R101: the twelve command words decode to their commands. -/
def Obligations.CommandWordsDecode : Prop :=
  decode 0x00000000#32 = .ok .nop ∧ decode 0x00000001#32 = .ok .tblClear ∧ decode 0x00000002#32 = .ok .tblWrite ∧
  decode 0x00000003#32 = .ok .tblRead ∧ decode 0x00000004#32 = .ok .tblInvalidate ∧
  decode 0x00000010#32 = .ok .encStart ∧ decode 0x00000011#32 = .ok .encPut ∧
  decode 0x00000012#32 = .ok .encFinish ∧ decode 0x00000020#32 = .ok .decStart ∧
  decode 0x00000021#32 = .ok .decNext ∧ decode 0x000000F0#32 = .ok .abort ∧ decode 0x000000FF#32 = .ok .softReset

/-- 30_encoding.md R101: the opcode map over every word, a command being selected by the whole word; and decoding and
encoding agree in both directions. -/
def Obligations.DecodeIsInverseOfEncode : Prop :=
  (∀ (w : Word) (i : Instr), decode w = .ok i ↔ w.toNat = match i with
    | .nop => 0x00 | .tblClear => 0x01 | .tblWrite => 0x02 | .tblRead => 0x03 | .tblInvalidate => 0x04
    | .encStart => 0x10 | .encPut => 0x11 | .encFinish => 0x12 | .decStart => 0x20 | .decNext => 0x21
    | .abort => 0xF0 | .softReset => 0xFF) ∧
  (∀ i : Instr, decode (encode i) = .ok i) ∧ ∀ (w : Word) (i : Instr), decode w = .ok i → encode i = w

/-- 30_encoding.md R102, 43_control.md R223: writing an illegal word to CMD changes nothing but RESULT. -/
def Obligations.IllegalWordSetsOnlyResult : Prop :=
  ∀ (s : State) (addr w : Word) (rest : List HostEvent), s.hostIn = .write addr w :: rest → addr.toNat / 4 = 0x18 / 4 →
    (w.toNat / 256 ≠ 0 ∨ w.toNat % 256 ∉
      [0x00, 0x01, 0x02, 0x03, 0x04, 0x10, 0x11, 0x12, 0x20, 0x21, 0xF0, 0xFF]) →
    step s = .next { s with hostIn := rest, result := .illegalCmd }

/-- 10_state.md R38: a host write of `w` to CMD runs command `w` at once, and CMD reads 0. -/
def Obligations.CmdWriteRunsTheCommand : Prop :=
  (∀ (s : State) (addr w : Word) (rest : List HostEvent) (i : Instr), s.hostIn = .write addr w :: rest →
    addr.toNat / 4 = 0x18 / 4 → decode w = .ok i → step s = exec i { s with hostIn := rest }) ∧
  (∀ (s : State) (addr : Word) (rest : List HostEvent), s.hostIn = .read addr :: rest → addr.toNat / 4 = 0x18 / 4 →
    step s = .next { s with hostIn := rest, hostOut := s.hostOut ++ [0#32] })

/-- The model's `withFetchWord` (log entry 1): the next step runs the command whose word it placed. -/
def Obligations.FetchedWordRunsNext : Prop :=
  ∀ (s : State) (i : Instr), step (s.withFetchWord 32 (encode i).toNat) = exec i s

/-- 60_exceptions.md R287: every transaction from every state completes, and so does every command. -/
def Obligations.EveryTransactionCompletes : Prop :=
  (∀ s : State, Safe s) ∧ ∀ (i : Instr) (s : State), ∃ t, exec i s = .next t

/-- 00_scope.md R6: the block never acts without a host access (that a step without one changes nothing is the model's
choice, log entry 1). -/
def Obligations.NoAccessNoChange : Prop :=
  ∀ s : State, s.hostIn = [] → step s = .next s

/-! ## Control commands -/

/-- 43_control.md R220: NOP sets RESULT to OK and nothing else. -/
def Obligations.NopSetsOnlyResult : Prop :=
  ∀ s : State, exec .nop s = .next { s with result := .ok }

/-- 43_control.md R221: ABORT returns to IDLE, clears the flags and keeps everything else. -/
def Obligations.AbortEndsTheOperation : Prop :=
  ∀ s : State, exec .abort s = .next { s with mode := .idle, symValid := false, done := false, result := .ok }

/-- 43_control.md R222: SOFT_RESET gives every piece of state but PBUF its reset value (10_state.md R59). -/
def Obligations.SoftResetKeepsOnlyPbuf : Prop :=
  ∀ s : State, exec .softReset s = .next
    { config := s.config, byteOrder := .big, mode := .idle, symValid := false, done := false, result := .ok,
      argSym := 0#32, argCode := 0#32, tblIdx := 0#16, tblLen := 0#6, tblLenValid := false, pktLen := 0#32,
      symCount := 0#32, decSym := 0#32, decPos := 0#32,
      table := if s.config.tableRom then s.config.tableInit else [], pbuf := s.pbuf, ebits := [], dbits := [],
      powerOns := s.powerOns, hostIn := s.hostIn, hostOut := s.hostOut }

/-! ## Table commands -/

/-- 40_table.md R133: TBL_CLEAR. -/
def Obligations.TblClearRule : Prop :=
  ∀ s : State,
    (s.mode ≠ .idle → exec .tblClear s = .next { s with result := .badMode }) ∧
    (s.mode = .idle → s.config.tableRom = true → exec .tblClear s = .next { s with result := .tableRo }) ∧
    (s.mode = .idle → s.config.tableRom = false → ∃ t, exec .tblClear s = .next t ∧
      t = { s with table := t.table, result := .ok } ∧ (∀ i, entryAt t.table i = Entry.empty) ∧
      busRead t 0x40#32 = 0#32)

/-- 40_table.md R134: TBL_WRITE, every check in its order and the entry written. The table is in its canonical form, an
invariant (`StepKeepsInvariant`). -/
def Obligations.TblWriteRule : Prop :=
  ∀ s : State, SMap.wf s.table →
    let i := s.tblIdx.toNat
    let l := s.tblLen.toNat
    let c := s.argCode.toNat % 2 ^ l
    let duplicate := ∃ j, j ≠ i ∧ (entryAt s.table j).valid = true ∧ (entryAt s.table j).sym = s.argSym
    let conflict := ∃ j, j ≠ i ∧ (entryAt s.table j).valid = true ∧
      inPrefix l c (entryAt s.table j).len.toNat (entryAt s.table j).code.toNat = true
    (s.mode ≠ .idle → exec .tblWrite s = .next { s with result := .badMode }) ∧
    (s.mode = .idle → s.config.tableRom = true → exec .tblWrite s = .next { s with result := .tableRo }) ∧
    (s.mode = .idle → s.config.tableRom = false →
      (s.config.tableDepth ≤ i → exec .tblWrite s = .next { s with result := .badIndex }) ∧
      (i < s.config.tableDepth →
        (l = 0 ∨ s.config.maxLen < l → exec .tblWrite s = .next { s with result := .badLen }) ∧
        (1 ≤ l → l ≤ s.config.maxLen →
          (duplicate → exec .tblWrite s = .next { s with result := .dupSymbol }) ∧
          (¬duplicate → conflict → exec .tblWrite s = .next { s with result := .prefixConflict }) ∧
          (¬duplicate → ¬conflict → ∃ t, exec .tblWrite s = .next t ∧
            t = { s with table := t.table, result := .ok } ∧
            (entryAt t.table i).valid = true ∧ (entryAt t.table i).sym = s.argSym ∧
            (entryAt t.table i).len = s.tblLen ∧ (entryAt t.table i).code.toNat = c ∧
            ∀ j, j ≠ i → entryAt t.table j = entryAt s.table j))))

/-- 40_table.md R135: TBL_READ, in every mode. -/
def Obligations.TblReadRule : Prop :=
  ∀ s : State,
    (s.config.tableDepth ≤ s.tblIdx.toNat → exec .tblRead s = .next { s with result := .badIndex }) ∧
    (s.tblIdx.toNat < s.config.tableDepth →
      exec .tblRead s = .next { s with
        argSym := (entryAt s.table s.tblIdx.toNat).sym, argCode := (entryAt s.table s.tblIdx.toNat).code,
        tblLen := (entryAt s.table s.tblIdx.toNat).len, tblLenValid := (entryAt s.table s.tblIdx.toNat).valid,
        result := .ok })

/-- 40_table.md R136: TBL_INVALIDATE. -/
def Obligations.TblInvalidateRule : Prop :=
  ∀ s : State,
    (s.mode ≠ .idle → exec .tblInvalidate s = .next { s with result := .badMode }) ∧
    (s.mode = .idle → s.config.tableRom = true → exec .tblInvalidate s = .next { s with result := .tableRo }) ∧
    (s.mode = .idle → s.config.tableRom = false → s.config.tableDepth ≤ s.tblIdx.toNat →
      exec .tblInvalidate s = .next { s with result := .badIndex }) ∧
    (s.mode = .idle → s.config.tableRom = false → s.tblIdx.toNat < s.config.tableDepth →
      ∃ t, exec .tblInvalidate s = .next t ∧ t = { s with table := t.table, result := .ok } ∧
        entryAt t.table s.tblIdx.toNat = Entry.empty ∧
        ∀ j, j ≠ s.tblIdx.toNat → entryAt t.table j = entryAt s.table j)

/-- 40_table.md R137: a ROM build's table is TABLE_INIT from reset on and never changes; in IDLE the modifying commands
fail with TABLE_RO, and TBL_READ reads TABLE_INIT. -/
def Obligations.RomTableNeverChanges : Prop :=
  ∀ s : State, s.config.tableRom = true →
    (∀ t, step s = .next t → s.table = s.config.tableInit → t.table = t.config.tableInit) ∧
    (∀ t, exec .softReset s = .next t → t.table = s.config.tableInit) ∧
    (s.mode = .idle → ∀ i, i = .tblClear ∨ i = .tblWrite ∨ i = .tblInvalidate →
      exec i s = .next { s with result := .tableRo }) ∧
    (s.table = s.config.tableInit → s.tblIdx.toNat < s.config.tableDepth → ∃ t, exec .tblRead s = .next t ∧
      t.argSym = (entryAt s.config.tableInit s.tblIdx.toNat).sym ∧
      t.argCode = (entryAt s.config.tableInit s.tblIdx.toNat).code ∧
      t.tblLen = (entryAt s.config.tableInit s.tblIdx.toNat).len ∧
      t.tblLenValid = (entryAt s.config.tableInit s.tblIdx.toNat).valid)

/-- 40_table.md R138: while an operation runs, no step changes the table, and the commands that would fail with BAD_MODE.
The byte order, the packet and DBITS stay fixed too (20_memory.md R86). -/
def Obligations.TableFixedDuringOperation : Prop :=
  (∀ s t : State, s.mode ≠ .idle → step s = .next t → t.mode ≠ .idle →
    t.table = s.table ∧ t.byteOrder = s.byteOrder ∧ t.pktLen = s.pktLen ∧ t.pbuf = s.pbuf ∧ t.dbits = s.dbits) ∧
  (∀ (s : State) (i : Instr), s.mode ≠ .idle → i = .tblClear ∨ i = .tblWrite ∨ i = .tblInvalidate →
    exec i s = .next { s with result := .badMode })

/-- 10_state.md R45: T1 to T5 hold at every moment, in the words of the rule: in every state that meets the invariant,
and after every step from one. -/
def Obligations.TableInvariantAtEveryMoment : Prop :=
  ∀ s : State, Inv s → TableInvariant s.config s.table ∧ ∀ t, step s = .next t → TableInvariant t.config t.table

/-- 40_table.md R130, R131: each lookup gives the one valid entry with that symbol or codeword, and `none` where no valid
entry has it. -/
def Obligations.LookupsFindTheOneEntry : Prop :=
  ∀ (c : Config) (t : Table), Table.wf c t →
    (∀ (x : Word) (i : Nat), symLookup t x = some i ↔ (entryAt t i).valid = true ∧ (entryAt t i).sym = x) ∧
    (∀ l v i : Nat, codeLookup t l v = some i ↔
      (entryAt t i).valid = true ∧ (entryAt t i).len.toNat = l ∧ (entryAt t i).code.toNat = v)

/-- 40_table.md R132: two codewords are in prefix relation when one bit-string is a prefix of the other. -/
def Obligations.PrefixRelationIsPrefixOfBitStrings : Prop :=
  ∀ la ca lb cb : Nat, ca < 2 ^ la → cb < 2 ^ lb →
    (inPrefix la ca lb cb = true ↔ bits ca la <+: bits cb lb ∨ bits cb lb <+: bits ca la)

/-! ## Bit-strings and packets -/

/-- 00_scope.md R10: `bits(v, n)` is the n-bit string of `v`, first bit most significant, and `int` is its inverse. -/
def Obligations.BitStringsAreBinaryNumbers : Prop :=
  (∀ v n : Nat, (bits v n).length = n ∧ ∀ i, i < n → (bits v n)[i]? = some (v.testBit (n - 1 - i))) ∧
  (∀ v n : Nat, bitsToNat (bits v n) = v % 2 ^ n) ∧ (∀ s : Bits, bits (bitsToNat s) s.length = s) ∧ bitsToNat [] = 0

/-- 20_memory.md R82: where each bit of a sequence lies in its packet. Bit `i` of `L` bits is digit `L-1-i` of the
number; digit `d` is bit `d mod 8` of byte `n-1 - d/8` in big-endian and of byte `d/8` in little-endian order; digits from
`L` on are the zero padding; the first bit is bit `(L-1) mod 8` of the first byte in big-endian and of the last in
little-endian order. -/
def Obligations.PackedBitOrder : Prop :=
  ∀ s : Bits, s ≠ [] →
    let n := (s.length + 7) / 8
    (∀ i, i < s.length →
      ((pack s .big)[n - 1 - (s.length - 1 - i) / 8]?).map (fun b => b.getLsbD ((s.length - 1 - i) % 8)) = s[i]? ∧
      ((pack s .little)[(s.length - 1 - i) / 8]?).map (fun b => b.getLsbD ((s.length - 1 - i) % 8)) = s[i]?) ∧
    (∀ d, s.length ≤ d → d < 8 * n →
      ((pack s .big)[n - 1 - d / 8]?).map (fun b => b.getLsbD (d % 8)) = some false ∧
      ((pack s .little)[d / 8]?).map (fun b => b.getLsbD (d % 8)) = some false) ∧
    ((pack s .big)[0]?).map (fun b => b.getLsbD ((s.length - 1) % 8)) = s[0]? ∧
    ((pack s .little)[n - 1]?).map (fun b => b.getLsbD ((s.length - 1) % 8)) = s[0]?

/-- 20_memory.md R90: `Unpack` reads the bytes in index order (big-endian) or in reverse index order (little-endian),
each most significant bit first, and it inverts `Pack` up to the left padding. -/
def Obligations.UnpackInvertsPack : Prop :=
  (∀ b : List Byte, unpack b .big = b.flatMap (fun x => bits x.toNat 8) ∧
    unpack b .little = b.reverse.flatMap (fun x => bits x.toNat 8)) ∧
  (∀ (s : Bits) (bo : ByteOrder), 1 ≤ s.length →
    unpack (pack s bo) bo = List.replicate (8 * ((s.length + 7) / 8) - s.length) false ++ s)

/-- 42_decoder.md R191: `FirstOne(D)` is the least index with a 1 bit, or `none` when there is none. -/
def Obligations.FirstOneIsTheFirstOneBit : Prop :=
  (∀ (d : Bits) (z : Nat), firstOne d = some z ↔ d[z]? = some true ∧ ∀ j, j < z → d[j]? = some false) ∧
  (∀ d : Bits, firstOne d = none ↔ true ∉ d) ∧ firstOne [] = none

/-! ## Encoder -/

/-- 41_encoder.md R161: ENC_START. -/
def Obligations.EncStartRule : Prop :=
  ∀ s : State,
    (s.mode ≠ .idle → exec .encStart s = .next { s with result := .badMode }) ∧
    (s.mode = .idle → exec .encStart s = .next { s with
      ebits := [true], symCount := 0#32, symValid := false, done := false, mode := .encoding, result := .ok })

/-- 41_encoder.md R162: ENC_PUT, every check in its order and the codeword appended. The table invariant is R45's. -/
def Obligations.EncPutRule : Prop :=
  ∀ s : State, Table.wf s.config s.table →
    (s.mode ≠ .encoding → exec .encPut s = .next { s with result := .badMode }) ∧
    (s.mode = .encoding →
      ((∀ i, ¬((entryAt s.table i).valid = true ∧ (entryAt s.table i).sym = s.argSym)) →
        exec .encPut s = .next { s with result := .noSymbol, mode := .idle }) ∧
      (∀ i, (entryAt s.table i).valid = true → (entryAt s.table i).sym = s.argSym →
        (8 * s.config.pbufBytes < s.ebits.length + (entryAt s.table i).len.toNat →
          exec .encPut s = .next { s with result := .overflow, mode := .idle }) ∧
        (s.ebits.length + (entryAt s.table i).len.toNat ≤ 8 * s.config.pbufBytes →
          exec .encPut s = .next { s with
            ebits := s.ebits ++ bits (entryAt s.table i).code.toNat (entryAt s.table i).len.toNat,
            symCount := s.symCount + 1#32, result := .ok })))

/-- 41_encoder.md R163: ENC_FINISH. The packet's bytes are those of 20_memory.md R81, the bytes of PBUF beyond it keep
their values, and nothing else changes. -/
def Obligations.EncFinishRule : Prop :=
  ∀ s : State, Inv s →
    let n := (s.ebits.length + 7) / 8
    (s.mode ≠ .encoding → exec .encFinish s = .next { s with result := .badMode }) ∧
    (s.mode = .encoding → s.symCount = 0#32 → exec .encFinish s = .next { s with
      result := .empty, mode := .idle, symValid := false, done := false }) ∧
    (s.mode = .encoding → s.symCount ≠ 0#32 → ∃ t, exec .encFinish s = .next t ∧
      t = { s with pbuf := t.pbuf, pktLen := t.pktLen, mode := .idle, symValid := false, done := true, result := .ok } ∧
      t.pktLen.toNat = n ∧ n ≤ s.config.pbufBytes ∧
      (∀ k, k < n → (readByte t k).toNat = match s.byteOrder with
        | .big => bitsToNat s.ebits / 2 ^ (8 * (n - 1 - k)) % 256
        | .little => bitsToNat s.ebits / 2 ^ (8 * k) % 256) ∧
      (∀ k, n ≤ k → readByte t k = readByte s k))

/-- 41_encoder.md R164: after ENC_START and a successful ENC_PUT of each symbol, EBITS is the sentinel and the codewords in
order, and ENC_FINISH leaves its packing in PBUF. -/
def Obligations.EncodeGivesThePackedPayload : Prop :=
  ∀ (s : State) (syms : List Word) (rest : List HostEvent), Inv s → s.mode = .idle → syms ≠ [] →
    (∀ x ∈ syms, ∃ i, (entryAt s.table i).valid = true ∧ (entryAt s.table i).sym = x) →
    (encodedPayload s.table syms).length ≤ 8 * s.config.pbufBytes →
    s.hostIn = encodeEvents syms ++ rest →
    ∃ t : State, Host.Core.run Sys2Proof.core (encodeEvents syms).length s = .next t ∧
      t.ebits = encodedPayload s.table syms ∧ packet t = pack (encodedPayload s.table syms) s.byteOrder ∧
      t.symCount.toNat = syms.length ∧ t.mode = .idle ∧ t.done = true ∧ t.result = .ok ∧ t.hostIn = rest

/-! ## Decoder -/

/-- 42_decoder.md R192: DEC_START, with `D` the unpacked packet (R190) and `z` its first 1 bit (R191). -/
def Obligations.DecStartRule : Prop :=
  ∀ s : State, Inv s →
    let d := unpack ((List.range s.pktLen.toNat).map (readByte s)) s.byteOrder
    (s.mode ≠ .idle → exec .decStart s = .next { s with result := .badMode }) ∧
    (s.mode = .idle → true ∉ d →
      exec .decStart s = .next { s with symValid := false, done := false, result := .noSentinel }) ∧
    (s.mode = .idle → ∀ z, d[z]? = some true → (∀ j, j < z → d[j]? = some false) →
      ∃ t, exec .decStart s = .next t ∧
        t = { s with dbits := d, decPos := t.decPos, symCount := 0#32, mode := .decoding,
                     symValid := false, done := false, result := .ok } ∧
        t.decPos.toNat = z + 1)

/-- 42_decoder.md R193: DEC_NEXT. A candidate of `k` bits matches the entry whose codeword it is; by the table invariant
at most one does (R194). -/
def Obligations.DecNextRule : Prop :=
  ∀ s : State, Inv s →
    let p := s.decPos.toNat
    let matching := fun i k => (entryAt s.table i).valid = true ∧ (entryAt s.table i).len.toNat = k ∧
      p + k ≤ s.dbits.length ∧ (entryAt s.table i).code.toNat = bitsToNat ((s.dbits.drop p).take k)
    (s.mode ≠ .decoding → exec .decNext s = .next { s with result := .badMode }) ∧
    (s.mode = .decoding → p = s.dbits.length → exec .decNext s = .next { s with
      symValid := false, done := true, mode := .idle, result := .ok }) ∧
    (s.mode = .decoding → p ≠ s.dbits.length → (∀ i k, ¬matching i k) → exec .decNext s = .next { s with
      symValid := false, result := .decode, mode := .idle }) ∧
    (s.mode = .decoding → ∀ i k, matching i k → ∃ t, exec .decNext s = .next t ∧
      t = { s with decSym := (entryAt s.table i).sym, decPos := t.decPos, symCount := t.symCount,
                   symValid := true, result := .ok } ∧
      t.decPos.toNat = p + k ∧ t.symCount.toNat = s.symCount.toNat + 1)

/-- 42_decoder.md R194: at most one candidate length matches, and it matches one entry. -/
def Obligations.GreedyMatchIsUnambiguous : Prop :=
  ∀ (c : Config) (t : Table) (d : Bits) (p k1 k2 i1 i2 : Nat), Table.wf c t →
    p + k1 ≤ d.length → p + k2 ≤ d.length →
    codeLookup t k1 (bitsToNat (slice d p (p + k1))) = some i1 →
    codeLookup t k2 (bitsToNat (slice d p (p + k2))) = some i2 → k1 = k2 ∧ i1 = i2

/-- 42_decoder.md R195: failing at MAX_LEN bits gives what a decoder with no such bound gives. The loop of DEC_NEXT with
any larger bound finds the same entry and length, or fails alike, and a candidate that matches nothing up to MAX_LEN bits
matches nothing at any length. -/
def Obligations.EarlyFailureLosesNoMatch : Prop :=
  ∀ (c : Config) (t : Table) (d : Bits) (p : Nat), Table.wf c t →
    (∀ n, c.maxLen ≤ n → greedyMatch t d p n 1 = greedyMatch t d p c.maxLen 1) ∧
    ((∀ k, 1 ≤ k → k ≤ c.maxLen → codeLookup t k (bitsToNat (slice d p (p + k))) = none) →
      ∀ k, codeLookup t k (bitsToNat (slice d p (p + k))) = none)

/-- 42_decoder.md R196: an encode followed by a decode delivers the symbols in order. The host reads STATUS 0x0006 and
the symbol after each DEC_NEXT, and STATUS 0x0008 after the last. -/
def Obligations.EncodeThenDecodeRoundTrip : Prop :=
  ∀ (s : State) (syms : List Word) (rest : List HostEvent), Inv s → s.mode = .idle → syms ≠ [] →
    (∀ x ∈ syms, ∃ i, (entryAt s.table i).valid = true ∧ (entryAt s.table i).sym = x) →
    (encodedPayload s.table syms).length ≤ 8 * s.config.pbufBytes →
    s.hostIn = encodeEvents syms ++ (decodeEvents syms.length ++ rest) →
    ∃ t : State,
      Host.Core.run Sys2Proof.core ((encodeEvents syms).length + (decodeEvents syms.length).length) s = .next t ∧
      t.hostOut = s.hostOut ++ (syms.flatMap (fun x => [0x00000006#32, x]) ++ [0x00000008#32]) ∧
      t.symCount.toNat = syms.length ∧ t.mode = .idle ∧ t.hostIn = rest

/-- 70_reset_and_hazards.md R310: a decode loop ends after at most `|DBITS| - DEC_POS + 1` DEC_NEXT commands. -/
def Obligations.DecodeLoopEnds : Prop :=
  ∀ (s : State) (rest : List HostEvent), Inv s → s.mode = .decoding →
    s.hostIn = List.replicate (s.dbits.length - s.decPos.toNat + 1) (cmd .decNext) ++ rest →
    ∃ t : State, Host.Core.run Sys2Proof.core (s.dbits.length - s.decPos.toNat + 1) s = .next t ∧
      t.mode = .idle ∧ t.hostIn = rest

/-! ## The bus -/

/-- 20_memory.md R79: a read changes no state; only its value reaches the host. -/
def Obligations.ReadsHaveNoSideEffect : Prop :=
  ∀ (s : State) (addr : Word) (rest : List HostEvent), s.hostIn = .read addr :: rest →
    ∃ v, step s = .next { s with hostIn := rest, hostOut := s.hostOut ++ [v] }

/-- 10_state.md R31 to R34: ID and the build registers, which never change. -/
def Obligations.BuildRegistersAreConstant : Prop :=
  ∀ s : State, Config.wf s.config →
    busRead s 0x00#32 = 0x48554646#32 ∧
    (busRead s 0x04#32).toNat = s.config.order + 16 * s.config.tableRom.toNat + 256 * s.config.maxLen ∧
    (busRead s 0x08#32).toNat = s.config.tableDepth ∧
    (busRead s 0x0C#32).toNat = s.config.pbufBytes ∧
    ∀ t, step s = .next t → t.config = s.config

/-- 10_state.md R37: the fields of STATUS, and a host write to it changes nothing. -/
def Obligations.StatusFields : Prop :=
  (∀ s : State, (busRead s 0x14#32).toNat =
    (match s.mode with | .idle => 0 | .encoding => 1 | .decoding => 2) + 4 * s.symValid.toNat + 8 * s.done.toNat +
    256 * (match s.result with
      | .ok => 0 | .illegalCmd => 1 | .badMode => 2 | .badIndex => 3 | .badLen => 4 | .dupSymbol => 5
      | .prefixConflict => 6 | .noSymbol => 7 | .overflow => 8 | .empty => 9 | .range => 10 | .noSentinel => 11
      | .decode => 12 | .tableRo => 13)) ∧
  (∀ (s : State) (v : Word) (rest : List HostEvent), s.hostIn = .write 0x14#32 v :: rest →
    step s = .next { s with hostIn := rest })

/-- 10_state.md R35, R39 to R43, R46 to R50: what the other registers read. ENC_BITS is the length of EBITS and TBL_COUNT
the number of valid entries. -/
def Obligations.WorkingRegistersRead : Prop :=
  ∀ s : State, Inv s →
    (busRead s 0x10#32).toNat = (match s.byteOrder with | .big => 0 | .little => 1) ∧
    busRead s 0x1C#32 = s.argSym ∧ busRead s 0x20#32 = s.argCode ∧
    (busRead s 0x24#32).toNat = s.tblIdx.toNat ∧
    (busRead s 0x28#32).toNat = s.tblLen.toNat + 2 ^ 31 * s.tblLenValid.toNat ∧
    busRead s 0x2C#32 = s.pktLen ∧ (busRead s 0x30#32).toNat = s.ebits.length ∧ busRead s 0x34#32 = s.symCount ∧
    busRead s 0x38#32 = s.decSym ∧ busRead s 0x3C#32 = s.decPos ∧
    (busRead s 0x40#32).toNat =
      ((List.range s.config.tableDepth).filter (fun i => (entryAt s.table i).valid)).length

/-- 20_memory.md R71: bits [1:0] of an address are ignored. -/
def Obligations.AddressLowBitsIgnored : Prop :=
  ∀ (s : State) (a b v : Word) (rest : List HostEvent), a.toNat / 4 = b.toNat / 4 →
    step { s with hostIn := .read a :: rest } = step { s with hostIn := .read b :: rest } ∧
    step { s with hostIn := .write a v :: rest } = step { s with hostIn := .write b v :: rest }

/-- 20_memory.md R73: a reserved or unmapped address reads 0, and a write there changes nothing. -/
def Obligations.ReservedAndUnmappedAddresses : Prop :=
  ∀ (s : State) (a v : Word) (rest : List HostEvent),
    (0x44 ≤ a.toNat ∧ a.toNat < 0x10000) ∨ 0x10000 + 4 * s.config.pbufBytes ≤ a.toNat →
    (s.hostIn = .read a :: rest → step s = .next { s with hostIn := rest, hostOut := s.hostOut ++ [0#32] }) ∧
    (s.hostIn = .write a v :: rest → step s = .next { s with hostIn := rest })

/-- 20_memory.md R74, R75: the PBUF window. In IDLE a write stores `v[7:0]` in its byte, every other byte keeps its value
and nothing else changes; in the other modes it sets RESULT to BAD_MODE only; a read gives the byte in every mode; and no
step of a running operation changes PBUF. -/
def Obligations.PbufWindow : Prop :=
  (∀ (s : State) (a v : Word) (i : Nat) (rest : List HostEvent), i < s.config.pbufBytes → a.toNat / 4 = 0x4000 + i →
    (s.hostIn = .read a :: rest →
      step s = .next { s with hostIn := rest, hostOut := s.hostOut ++ [BitVec.ofNat 32 (readByte s i).toNat] }) ∧
    (s.hostIn = .write a v :: rest → s.mode = .idle → ∃ t, step s = .next t ∧
      t = { s with hostIn := rest, pbuf := t.pbuf } ∧ (readByte t i).toNat = v.toNat % 256 ∧
      ∀ j, j ≠ i → readByte t j = readByte s j) ∧
    (s.hostIn = .write a v :: rest → s.mode ≠ .idle →
      step s = .next { s with hostIn := rest, result := .badMode })) ∧
  (∀ s t : State, s.mode ≠ .idle → step s = .next t → t.mode ≠ .idle → ∀ i, readByte t i = readByte s i)

/-- 20_memory.md R76: writes to CTRL and PKT_LEN, and the operand registers, whose writes are never rejected. -/
def Obligations.RejectedRegisterWrites : Prop :=
  ∀ (s : State) (v : Word) (rest : List HostEvent),
    (s.hostIn = .write 0x10#32 v :: rest →
      (s.mode ≠ .idle → step s = .next { s with hostIn := rest, result := .badMode }) ∧
      (s.mode = .idle → step s = .next { s with
        hostIn := rest, byteOrder := if v.toNat % 2 = 0 then .big else .little })) ∧
    (s.hostIn = .write 0x2C#32 v :: rest →
      (s.mode ≠ .idle → step s = .next { s with hostIn := rest, result := .badMode }) ∧
      (s.mode = .idle → s.config.pbufBytes < v.toNat → step s = .next { s with hostIn := rest, result := .range }) ∧
      (s.mode = .idle → v.toNat ≤ s.config.pbufBytes → step s = .next { s with hostIn := rest, pktLen := v })) ∧
    (∀ a : Word, a = 0x1C#32 ∨ a = 0x20#32 ∨ a = 0x24#32 ∨ a = 0x28#32 → s.hostIn = .write a v :: rest →
      ∃ t, step s = .next t ∧ t.result = s.result ∧ t.mode = s.mode)

/-- 10_state.md R39 to R42: what a host write leaves in each operand register, in every mode, and nothing else changes. -/
def Obligations.OperandRegisterWrites : Prop :=
  ∀ (s : State) (v : Word) (rest : List HostEvent),
    (s.hostIn = .write 0x1C#32 v :: rest → ∃ t, step s = .next t ∧ t = { s with hostIn := rest, argSym := t.argSym } ∧
      t.argSym.toNat = v.toNat % 2 ^ (8 * s.config.order)) ∧
    (s.hostIn = .write 0x20#32 v :: rest → step s = .next { s with hostIn := rest, argCode := v }) ∧
    (s.hostIn = .write 0x24#32 v :: rest → ∃ t, step s = .next t ∧ t = { s with hostIn := rest, tblIdx := t.tblIdx } ∧
      t.tblIdx.toNat = v.toNat % 2 ^ 16) ∧
    (s.hostIn = .write 0x28#32 v :: rest → ∃ t, step s = .next t ∧ t = { s with hostIn := rest, tblLen := t.tblLen } ∧
      t.tblLen.toNat = v.toNat % 2 ^ 6)

/-- 20_memory.md R77: writes to the read-only registers change nothing, RESULT included. -/
def Obligations.ReadOnlyWritesIgnored : Prop :=
  ∀ (s : State) (a v : Word) (rest : List HostEvent),
    a.toNat ∈ [0x00, 0x04, 0x08, 0x0C, 0x14, 0x30, 0x34, 0x38, 0x3C, 0x40] → s.hostIn = .write a v :: rest →
    step s = .next { s with hostIn := rest }

/-! ## Errors, flags and modes -/

/-- 60_exceptions.md R274: a command that fails sets RESULT, and MODE to IDLE for the four errors that abort. Only the flag
clears of DEC_START and DEC_NEXT stand beside that. -/
def Obligations.ErrorAction : Prop :=
  ∀ (i : Instr) (s t : State), exec i s = .next t → t.result ≠ .ok →
    t = { s with
      result := t.result,
      mode := if t.result = .noSymbol ∨ t.result = .overflow ∨ t.result = .empty ∨ t.result = .decode then .idle
        else s.mode,
      symValid := t.symValid, done := t.done } ∧
    (t.symValid = s.symValid ∧ t.done = s.done ∨
      i = .decStart ∧ t.result = .noSentinel ∧ t.symValid = false ∧ t.done = false ∨
      i = .decNext ∧ t.result = .decode ∧ t.symValid = false ∧ t.done = s.done)

/-- 60_exceptions.md R272: the results each command can produce, and an illegal word's. -/
def Obligations.ResultsOfEachCommand : Prop :=
  (∀ (i : Instr) (s t : State), exec i s = .next t → t.result ∈ match i with
    | .nop | .abort | .softReset => [Result.ok]
    | .tblClear => [.ok, .badMode, .tableRo]
    | .tblWrite => [.ok, .badMode, .tableRo, .badIndex, .badLen, .dupSymbol, .prefixConflict]
    | .tblRead => [.ok, .badIndex]
    | .tblInvalidate => [.ok, .badMode, .tableRo, .badIndex]
    | .encStart => [.ok, .badMode]
    | .encPut => [.ok, .badMode, .noSymbol, .overflow]
    | .encFinish => [.ok, .badMode, .empty]
    | .decStart => [.ok, .badMode, .noSentinel]
    | .decNext => [.ok, .badMode, .decode]) ∧
  (∀ (w : Word) (s t : State), (∀ i, w ≠ encode i) → writeCmd w s = .next t → t.result = .illegalCmd)

/-- 60_exceptions.md R270, R286: RESULT persists until the next CMD write or the next rejected write (or a power-on). -/
def Obligations.ResultPersists : Prop :=
  ∀ (s t : State) (ev : HostEvent) (rest : List HostEvent), s.hostIn = ev :: rest → step s = .next t →
    ev ≠ .powerOn → (∀ a v, ev = .write a v → a.toNat / 4 ≠ 0x18 / 4) →
    t.result = s.result ∨
    (∃ a v, ev = .write a v ∧ s.mode ≠ .idle ∧ t.result = .badMode ∧
      (a.toNat / 4 = 0x10 / 4 ∨ a.toNat / 4 = 0x2C / 4 ∨
        (0x10000 ≤ a.toNat ∧ a.toNat < 0x10000 + 4 * s.config.pbufBytes))) ∨
    (∃ a v, ev = .write a v ∧ s.mode = .idle ∧ t.result = .range ∧ a.toNat / 4 = 0x2C / 4 ∧
      s.config.pbufBytes < v.toNat)

/-- 10_state.md R60: SYM_VALID and DONE change only as the flag table says. -/
def Obligations.FlagTable : Prop :=
  (∀ (i : Instr) (s t : State), Inv s → exec i s = .next t →
    (t.symValid, t.done) = match i with
      | .softReset | .abort => (false, false)
      | .encStart => if t.result = .ok then (false, false) else (s.symValid, s.done)
      | .decStart => if t.result = .badMode then (s.symValid, s.done) else (false, false)
      | .encFinish =>
        if t.result = .ok then (false, true) else if t.result = .empty then (false, false) else (s.symValid, s.done)
      | .decNext =>
        if t.result = .badMode then (s.symValid, s.done)
        else if t.result = .decode then (false, false)
        else if s.decPos.toNat = s.dbits.length then (false, true) else (true, false)
      | .nop | .tblClear | .tblWrite | .tblRead | .tblInvalidate | .encPut => (s.symValid, s.done)) ∧
  (∀ (s t : State) (ev : HostEvent) (rest : List HostEvent), s.hostIn = ev :: rest → step s = .next t →
    (ev = .powerOn → t.symValid = false ∧ t.done = false) ∧
    (ev ≠ .powerOn → (∀ a w i, ev = .write a w → a.toNat / 4 = 0x18 / 4 → decode w ≠ .ok i) →
      t.symValid = s.symValid ∧ t.done = s.done))

/-- 10_state.md R36: how each mode is entered and left, over every step. -/
def Obligations.ModeTable : Prop :=
  ∀ s t : State, step s = .next t →
    let runs := fun i => ∃ a rest, s.hostIn = .write a (encode i) :: rest ∧ a.toNat / 4 = 0x18 / 4
    let powered := ∃ rest, s.hostIn = .powerOn :: rest
    (s.mode ≠ .encoding → t.mode = .encoding → s.mode = .idle ∧ runs .encStart ∧ t.result = .ok) ∧
    (s.mode ≠ .decoding → t.mode = .decoding → s.mode = .idle ∧ runs .decStart ∧ t.result = .ok) ∧
    (s.mode = .encoding → t.mode ≠ .encoding → t.mode = .idle ∧
      (runs .encFinish ∨ (runs .encPut ∧ t.result ≠ .ok) ∨ runs .abort ∨ runs .softReset ∨ powered)) ∧
    (s.mode = .decoding → t.mode ≠ .decoding → t.mode = .idle ∧
      ((runs .decNext ∧ (s.decPos.toNat = s.dbits.length ∨ t.result = .decode)) ∨ runs .abort ∨ runs .softReset ∨
        powered))

/-- 30_encoding.md R103: what each command writes beside STATUS; every other register, the table, the sequences and the
packet buffer are unchanged. -/
def Obligations.CommandFrames : Prop :=
  ∀ (i : Instr) (s t : State), exec i s = .next t →
    let status := fun u : State =>
      { u with mode := t.mode, symValid := t.symValid, done := t.done, result := t.result }
    match i with
    | .nop | .abort => t = status s
    | .tblClear => t = status { s with table := t.table }
    | .tblWrite | .tblInvalidate => t = status { s with table := t.table } ∧
        ∀ j, j ≠ s.tblIdx.toNat → entryAt t.table j = entryAt s.table j
    | .tblRead =>
      t = status { s with argSym := t.argSym, argCode := t.argCode, tblLen := t.tblLen, tblLenValid := t.tblLenValid }
    | .encStart | .encPut => t = status { s with ebits := t.ebits, symCount := t.symCount }
    | .encFinish => t = status { s with pbuf := t.pbuf, pktLen := t.pktLen } ∧
        ∀ k, (s.ebits.length + 7) / 8 ≤ k → readByte t k = readByte s k
    | .decStart => t = status { s with dbits := t.dbits, decPos := t.decPos, symCount := t.symCount }
    | .decNext => t = status { s with decPos := t.decPos, decSym := t.decSym, symCount := t.symCount }
    | .softReset => t.pbuf = s.pbuf ∧ t.powerOns = s.powerOns ∧ t.config = s.config ∧ t.hostIn = s.hostIn ∧
        t.hostOut = s.hostOut

/-! ## Invariants and reset -/

/-- Every step keeps the invariant of the machine: the build is legal, every register is in its range, the table meets
R45, PBUF's list is canonical, and mode, flags and sequences agree. -/
def Obligations.StepKeepsInvariant : Prop :=
  ∀ s t : State, Inv s → step s = .next t → Inv t

/-- The state after reset meets the invariant (10_state.md R59, 70_reset_and_hazards.md R301, R303): State.reset, the
state right after reset of every legal build, and every power-on and SOFT_RESET of a legal build whose registers hold any
values (for SOFT_RESET, which keeps PBUF, with PBUF's list as the invariant has it, log entry 5). -/
def Obligations.ResetMeetsInvariant : Prop :=
  Inv State.reset ∧
  (∀ c : Config, Config.wf c → Inv { State.reset with config := c, table := resetTable c }) ∧
  (∀ s : State, Config.wf s.config → Inv (powerOnReset s)) ∧
  (∀ s t : State, Config.wf s.config → Memory.wf s.pbuf → (∀ p ∈ s.pbuf, p.1 < s.config.pbufBytes) →
    exec .softReset s = .next t → Inv t)

/-- 10_state.md R58: no counter wraps, and every counter stays in the bounds the rule gives. -/
def Obligations.NoCounterWraps : Prop :=
  ∀ s t : State, Inv s → step s = .next t →
    (t.symCount.toNat = 0 ∨ t.symCount = s.symCount ∨ t.symCount.toNat = s.symCount.toNat + 1) ∧
    t.ebits.length ≤ 8 * s.config.pbufBytes ∧ t.symCount.toNat ≤ 8 * s.config.pbufBytes ∧
    t.decPos.toNat ≤ 8 * s.config.pbufBytes ∧ t.pktLen.toNat ≤ 8 * s.config.pbufBytes ∧
    8 * s.config.pbufBytes ≤ 2 ^ 27 ∧
    validCount t.table ≤ s.config.tableDepth ∧ s.config.tableDepth ≤ 65536

/-- 10_state.md R59, 70_reset_and_hazards.md R304: the reset values the spec gives, as the host reads them, in the default
build of 00_scope.md R7 (that the default build is the one reset is the model's choice, log entry 3). -/
def Obligations.ResetValues : Prop :=
  busRead State.reset 0x00#32 = 0x48554646#32 ∧ busRead State.reset 0x04#32 = 0x00002001#32 ∧
  busRead State.reset 0x08#32 = 0x00000100#32 ∧ busRead State.reset 0x0C#32 = 0x00001000#32 ∧
  (∀ a : Word, a.toNat ∈ [0x10, 0x14, 0x18, 0x1C, 0x20, 0x24, 0x28, 0x2C, 0x30, 0x34, 0x38, 0x3C, 0x40] →
    busRead State.reset a = 0#32) ∧
  State.reset.ebits = [] ∧ State.reset.dbits = [] ∧ ∀ i, entryAt State.reset.table i = Entry.empty

/-- 70_reset_and_hazards.md R300 to R303: power-on reset. Every register takes its reset value and PBUF holds a draw of
PBUF_INIT (which draw is named by the model's own counter, log entry 4). -/
def Obligations.PowerOnResetRule : Prop :=
  ∀ (s : State) (rest : List HostEvent), s.hostIn = .powerOn :: rest → ∃ t, step s = .next t ∧
    t = { config := s.config, byteOrder := .big, mode := .idle, symValid := false, done := false, result := .ok,
          argSym := 0#32, argCode := 0#32, tblIdx := 0#16, tblLen := 0#6, tblLenValid := false, pktLen := 0#32,
          symCount := 0#32, decSym := 0#32, decPos := 0#32,
          table := if s.config.tableRom then s.config.tableInit else [], pbuf := t.pbuf, ebits := [], dbits := [],
          powerOns := s.powerOns + 1, hostIn := rest, hostOut := s.hostOut } ∧
    ∀ i, readByte t i = Config.pbufInit (s.powerOns + 1) i

/-- 70_reset_and_hazards.md R302: no outcome depends on PBUF_INIT unless the host reads a byte of PBUF, or runs DEC_START
over a byte, that nothing has written since power-on. Any other event gives the same next state whatever the draw. -/
def Obligations.PowerOnDrawIsHidden : Prop :=
  ∀ (s : State) (draw : Nat) (ev : HostEvent) (rest : List HostEvent), s.hostIn = ev :: rest → ev ≠ .powerOn →
    (∀ a i, ev = .read a → a.toNat / 4 = 0x4000 + i → i < s.config.pbufBytes → SMap.get? s.pbuf i ≠ none) →
    (∀ a, ev = .write a (encode .decStart) → a.toNat / 4 = 0x18 / 4 → s.mode = .idle →
      ∀ i, i < s.pktLen.toNat → SMap.get? s.pbuf i ≠ none) →
    ∃ t, step s = .next t ∧ step { s with powerOns := draw } = .next { t with powerOns := draw }

/-! ## The host reference (49_host_reference.md) -/

/-- 49_host_reference.md R241, R249, 30_encoding.md R104: the padded input is the input and then fewer than ORDER filler
bytes, a whole number of symbols; removing that many bytes gives the input back; and a symbol's value gives its bytes
back. -/
def Obligations.PaddingFillsWholeSymbols : Prop :=
  (∀ (ord : Nat) (fill : Byte) (b : List Byte), 1 ≤ ord →
    padLen ord b.length < ord ∧ ord ∣ b.length + padLen ord b.length ∧
    (padInput ord fill b).length = b.length + padLen ord b.length ∧
    (padInput ord fill b).take b.length = b ∧ (∀ x ∈ (padInput ord fill b).drop b.length, x = fill) ∧
    stripPadding (padLen ord b.length) (padInput ord fill b) = b ∧
    (splitSymbols ord (padInput ord fill b)).flatten = padInput ord fill b ∧
    ∀ x ∈ splitSymbols ord (padInput ord fill b), x.length = ord) ∧
  (∀ b : List Byte, b.length ≤ 4 → symBytes b.length (symval b) = b)

/-- 49_host_reference.md R246, R247: the codewords of a tree are never empty, and none is a prefix of another. -/
def Obligations.TreeCodesArePrefixFree : Prop :=
  ∀ t : Tree, (∀ p ∈ generateCodes t, p.2 ≠ []) ∧
    (generateCodes t).Pairwise (fun p q => ¬p.2 <+: q.2 ∧ ¬q.2 <+: p.2)

/-- 49_host_reference.md R243, R248, R252, R253: an error of the block ends the host's operation. A run of accesses that
succeeds leaves RESULT OK after each of them; the first access that does not ends the run, with that RESULT; a decode succeeds only for a body that PBUF holds; an encode and a decode
succeed only where the table can be loaded (log entry 17); and an empty input has no encode. -/
def Obligations.HostReportsEveryError : Prop :=
  (∀ (xs ys : List HostEvent) (s t : State), xs ≠ [] → issue (xs ++ ys) s = .ok t →
    ∃ u, issue xs s = .ok u ∧ u.result = .ok ∧ issue ys u = .ok t) ∧
  (∀ (xs ys : List HostEvent) (ev : HostEvent) (s u v : State), issue xs s = .ok u → deliver ev u = .next v →
    v.result ≠ .ok → issue (xs ++ ev :: ys) s = .error (.block v.result)) ∧
  (∀ (c : Container) (s t : State) (out : List Byte), hostDecode c s = .ok (out, t) →
    c.body.length ≤ s.config.pbufBytes ∧ s.config.tableRom = false ∧ t.done = true ∧ t.result = .ok) ∧
  (∀ (fill : Byte) (bo : ByteOrder) (b : List Byte) (s t : State) (c : Container),
    hostEncode fill bo b s = .ok (c, t) → s.config.tableRom = false ∧ t.result = .ok ∧ c.body = packet t) ∧
  (∀ (fill : Byte) (bo : ByteOrder) (s : State), 1 ≤ s.config.order → hostEncode fill bo [] s = .error .emptyInput)

/-- 49_host_reference.md R250: parsing gives back what was written and accepts nothing else (that a header must also fit
ORDER is the model's choice, log entry 16); without a terminator it fails with InvalidHeaderError, which ends the decode;
and a body with no sentinel is a CorruptContainerError (log entry 19), once the container's table is loaded. -/
def Obligations.ContainerReadInvertsWrite : Prop :=
  (∀ (ord : Nat) (c : Container) (k : Contents),
    readContainer ord c = .ok k ↔ k.headerFits ord = true ∧ writeContainer k = c) ∧
  (∀ (c : Container) (s : State), .terminator ∉ c.header → hostDecode c s = .error .invalidHeader) ∧
  (∀ (c : Container) (k : Contents) (s t : State), Config.wf s.config → readContainer s.config.order c = .ok k →
    loadTable k.codes s = .ok t → c.body.length ≤ s.config.pbufBytes → true ∉ unpack c.body c.byteOrder →
    hostDecode c s = .error (.corruptContainer .noSentinel))

end
end

