-- ==== Sys2Proof/Laws/BitString.lean ====
section
/-! SUPPORT. Lengths and values of bit-strings and packets. -/

namespace Sys2Proof.Machine

@[simp] theorem length_bits (v n : Nat) : (bits v n).length = n := by
  induction n with
  | zero => rfl
  | succ n ih => simp [bits, ih]

@[simp] theorem bitsToNat_nil : bitsToNat [] = 0 := rfl

theorem foldl_bits (s : Bits) (v : Nat) :
    s.foldl (fun v b => 2 * v + b.toNat) v = v * 2 ^ s.length + bitsToNat s := by
  induction s generalizing v with
  | nil => simp
  | cons b s ih =>
    have h : bitsToNat (b :: s) = b.toNat * 2 ^ s.length + bitsToNat s := by
      rw [bitsToNat, List.foldl_cons, ih, Nat.mul_zero, Nat.zero_add]
    rw [List.foldl_cons, ih, h, List.length_cons, pow_succ]
    ring

/-- The first bit of a bit-string is its most significant digit (00_scope.md R10). -/
theorem bitsToNat_cons (b : Bool) (s : Bits) : bitsToNat (b :: s) = b.toNat * 2 ^ s.length + bitsToNat s := by
  rw [bitsToNat, List.foldl_cons, foldl_bits]
  simp

theorem bitsToNat_append (s t : Bits) : bitsToNat (s ++ t) = bitsToNat s * 2 ^ t.length + bitsToNat t := by
  rw [bitsToNat, List.foldl_append, foldl_bits]
  rfl

/-- A bit-string's value fits its length. -/
theorem bitsToNat_lt (s : Bits) : bitsToNat s < 2 ^ s.length := by
  induction s with
  | nil => simp
  | cons b s ih =>
    rw [bitsToNat_cons, List.length_cons, pow_succ]
    cases b <;> simp <;> omega

@[simp] theorem length_pack (s : Bits) (bo : ByteOrder) : (pack s bo).length = (s.length + 7) / 8 := by
  simp [pack, packedLen]

@[simp] theorem length_unpack (b : List Byte) (bo : ByteOrder) : (unpack b bo).length = 8 * b.length := by
  simp [unpack]

/-- The sentinel lies inside the sequence (42_decoder.md R191). -/
theorem firstOne_lt {d : Bits} {z : Nat} (h : firstOne d = some z) : z < d.length := by
  induction d generalizing z with
  | nil => simp [firstOne] at h
  | cons b d ih =>
    cases b with
    | true =>
      obtain rfl := Option.some.inj h
      simp
    | false =>
      simp only [firstOne, Option.map_eq_some_iff] at h
      obtain ⟨y, hy, rfl⟩ := h
      simpa using ih hy

/-- The candidate of `k` bits at position `p` (42_decoder.md R193). -/
theorem slice_add (d : Bits) (p k : Nat) : slice d p (p + k) = (d.drop p).take k := by
  simp [slice]

end Sys2Proof.Machine
end

