-- ==== Sys2Proof/Laws/State.lean ====
section
/-! SUPPORT. One lemma per field and named update of State. -/

namespace Sys2Proof.Machine

section raised

/-! `raised` (60_exceptions.md R274) writes RESULT and, for an error that aborts, MODE. -/

variable (e : Result) (s : State)

@[simp] theorem raised_config : (raised e s).config = s.config := rfl
@[simp] theorem raised_byteOrder : (raised e s).byteOrder = s.byteOrder := rfl
@[simp] theorem raised_mode : (raised e s).mode = if aborts e then .idle else s.mode := rfl
@[simp] theorem raised_symValid : (raised e s).symValid = s.symValid := rfl
@[simp] theorem raised_done : (raised e s).done = s.done := rfl
@[simp] theorem raised_result : (raised e s).result = e := rfl
@[simp] theorem raised_argSym : (raised e s).argSym = s.argSym := rfl
@[simp] theorem raised_argCode : (raised e s).argCode = s.argCode := rfl
@[simp] theorem raised_tblIdx : (raised e s).tblIdx = s.tblIdx := rfl
@[simp] theorem raised_tblLen : (raised e s).tblLen = s.tblLen := rfl
@[simp] theorem raised_tblLenValid : (raised e s).tblLenValid = s.tblLenValid := rfl
@[simp] theorem raised_pktLen : (raised e s).pktLen = s.pktLen := rfl
@[simp] theorem raised_symCount : (raised e s).symCount = s.symCount := rfl
@[simp] theorem raised_decSym : (raised e s).decSym = s.decSym := rfl
@[simp] theorem raised_decPos : (raised e s).decPos = s.decPos := rfl
@[simp] theorem raised_table : (raised e s).table = s.table := rfl
@[simp] theorem raised_pbuf : (raised e s).pbuf = s.pbuf := rfl
@[simp] theorem raised_ebits : (raised e s).ebits = s.ebits := rfl
@[simp] theorem raised_dbits : (raised e s).dbits = s.dbits := rfl
@[simp] theorem raised_powerOns : (raised e s).powerOns = s.powerOns := rfl
@[simp] theorem raised_hostIn : (raised e s).hostIn = s.hostIn := rfl
@[simp] theorem raised_hostOut : (raised e s).hostOut = s.hostOut := rfl

end raised

section setFlags

/-! `setFlags` (10_state.md R60) writes SYM_VALID and DONE. -/

variable (v d : Bool) (s : State)

@[simp] theorem setFlags_config : (setFlags v d s).config = s.config := rfl
@[simp] theorem setFlags_byteOrder : (setFlags v d s).byteOrder = s.byteOrder := rfl
@[simp] theorem setFlags_mode : (setFlags v d s).mode = s.mode := rfl
@[simp] theorem setFlags_symValid : (setFlags v d s).symValid = v := rfl
@[simp] theorem setFlags_done : (setFlags v d s).done = d := rfl
@[simp] theorem setFlags_result : (setFlags v d s).result = s.result := rfl
@[simp] theorem setFlags_argSym : (setFlags v d s).argSym = s.argSym := rfl
@[simp] theorem setFlags_argCode : (setFlags v d s).argCode = s.argCode := rfl
@[simp] theorem setFlags_tblIdx : (setFlags v d s).tblIdx = s.tblIdx := rfl
@[simp] theorem setFlags_tblLen : (setFlags v d s).tblLen = s.tblLen := rfl
@[simp] theorem setFlags_tblLenValid : (setFlags v d s).tblLenValid = s.tblLenValid := rfl
@[simp] theorem setFlags_pktLen : (setFlags v d s).pktLen = s.pktLen := rfl
@[simp] theorem setFlags_symCount : (setFlags v d s).symCount = s.symCount := rfl
@[simp] theorem setFlags_decSym : (setFlags v d s).decSym = s.decSym := rfl
@[simp] theorem setFlags_decPos : (setFlags v d s).decPos = s.decPos := rfl
@[simp] theorem setFlags_table : (setFlags v d s).table = s.table := rfl
@[simp] theorem setFlags_pbuf : (setFlags v d s).pbuf = s.pbuf := rfl
@[simp] theorem setFlags_ebits : (setFlags v d s).ebits = s.ebits := rfl
@[simp] theorem setFlags_dbits : (setFlags v d s).dbits = s.dbits := rfl
@[simp] theorem setFlags_powerOns : (setFlags v d s).powerOns = s.powerOns := rfl
@[simp] theorem setFlags_hostIn : (setFlags v d s).hostIn = s.hostIn := rfl
@[simp] theorem setFlags_hostOut : (setFlags v d s).hostOut = s.hostOut := rfl

end setFlags

section respond

/-! `respond` (00_scope.md R14) adds one value to what the host has read. -/

variable (v : Word) (s : State)

@[simp] theorem respond_config : (respond v s).config = s.config := rfl
@[simp] theorem respond_byteOrder : (respond v s).byteOrder = s.byteOrder := rfl
@[simp] theorem respond_mode : (respond v s).mode = s.mode := rfl
@[simp] theorem respond_symValid : (respond v s).symValid = s.symValid := rfl
@[simp] theorem respond_done : (respond v s).done = s.done := rfl
@[simp] theorem respond_result : (respond v s).result = s.result := rfl
@[simp] theorem respond_argSym : (respond v s).argSym = s.argSym := rfl
@[simp] theorem respond_argCode : (respond v s).argCode = s.argCode := rfl
@[simp] theorem respond_tblIdx : (respond v s).tblIdx = s.tblIdx := rfl
@[simp] theorem respond_tblLen : (respond v s).tblLen = s.tblLen := rfl
@[simp] theorem respond_tblLenValid : (respond v s).tblLenValid = s.tblLenValid := rfl
@[simp] theorem respond_pktLen : (respond v s).pktLen = s.pktLen := rfl
@[simp] theorem respond_symCount : (respond v s).symCount = s.symCount := rfl
@[simp] theorem respond_decSym : (respond v s).decSym = s.decSym := rfl
@[simp] theorem respond_decPos : (respond v s).decPos = s.decPos := rfl
@[simp] theorem respond_table : (respond v s).table = s.table := rfl
@[simp] theorem respond_pbuf : (respond v s).pbuf = s.pbuf := rfl
@[simp] theorem respond_ebits : (respond v s).ebits = s.ebits := rfl
@[simp] theorem respond_dbits : (respond v s).dbits = s.dbits := rfl
@[simp] theorem respond_powerOns : (respond v s).powerOns = s.powerOns := rfl
@[simp] theorem respond_hostIn : (respond v s).hostIn = s.hostIn := rfl
@[simp] theorem respond_hostOut : (respond v s).hostOut = s.hostOut ++ [v] := rfl

end respond

section resetRegisters

/-! `resetRegisters` (10_state.md R59) writes everything but PBUF and the model's own fields. -/

variable (s : State)

@[simp] theorem resetRegisters_config : (resetRegisters s).config = s.config := rfl
@[simp] theorem resetRegisters_byteOrder : (resetRegisters s).byteOrder = .big := rfl
@[simp] theorem resetRegisters_mode : (resetRegisters s).mode = .idle := rfl
@[simp] theorem resetRegisters_symValid : (resetRegisters s).symValid = false := rfl
@[simp] theorem resetRegisters_done : (resetRegisters s).done = false := rfl
@[simp] theorem resetRegisters_result : (resetRegisters s).result = .ok := rfl
@[simp] theorem resetRegisters_argSym : (resetRegisters s).argSym = 0#32 := rfl
@[simp] theorem resetRegisters_argCode : (resetRegisters s).argCode = 0#32 := rfl
@[simp] theorem resetRegisters_tblIdx : (resetRegisters s).tblIdx = 0#16 := rfl
@[simp] theorem resetRegisters_tblLen : (resetRegisters s).tblLen = 0#6 := rfl
@[simp] theorem resetRegisters_tblLenValid : (resetRegisters s).tblLenValid = false := rfl
@[simp] theorem resetRegisters_pktLen : (resetRegisters s).pktLen = 0#32 := rfl
@[simp] theorem resetRegisters_symCount : (resetRegisters s).symCount = 0#32 := rfl
@[simp] theorem resetRegisters_decSym : (resetRegisters s).decSym = 0#32 := rfl
@[simp] theorem resetRegisters_decPos : (resetRegisters s).decPos = 0#32 := rfl
@[simp] theorem resetRegisters_table : (resetRegisters s).table = resetTable s.config := rfl
@[simp] theorem resetRegisters_pbuf : (resetRegisters s).pbuf = s.pbuf := rfl
@[simp] theorem resetRegisters_ebits : (resetRegisters s).ebits = [] := rfl
@[simp] theorem resetRegisters_dbits : (resetRegisters s).dbits = [] := rfl
@[simp] theorem resetRegisters_powerOns : (resetRegisters s).powerOns = s.powerOns := rfl
@[simp] theorem resetRegisters_hostIn : (resetRegisters s).hostIn = s.hostIn := rfl
@[simp] theorem resetRegisters_hostOut : (resetRegisters s).hostOut = s.hostOut := rfl

end resetRegisters

section powerOnReset

/-! `powerOnReset` (70_reset_and_hazards.md R301, R302) writes everything but the build and the host's side. -/

variable (s : State)

@[simp] theorem powerOnReset_config : (powerOnReset s).config = s.config := rfl
@[simp] theorem powerOnReset_byteOrder : (powerOnReset s).byteOrder = .big := rfl
@[simp] theorem powerOnReset_mode : (powerOnReset s).mode = .idle := rfl
@[simp] theorem powerOnReset_symValid : (powerOnReset s).symValid = false := rfl
@[simp] theorem powerOnReset_done : (powerOnReset s).done = false := rfl
@[simp] theorem powerOnReset_result : (powerOnReset s).result = .ok := rfl
@[simp] theorem powerOnReset_argSym : (powerOnReset s).argSym = 0#32 := rfl
@[simp] theorem powerOnReset_argCode : (powerOnReset s).argCode = 0#32 := rfl
@[simp] theorem powerOnReset_tblIdx : (powerOnReset s).tblIdx = 0#16 := rfl
@[simp] theorem powerOnReset_tblLen : (powerOnReset s).tblLen = 0#6 := rfl
@[simp] theorem powerOnReset_tblLenValid : (powerOnReset s).tblLenValid = false := rfl
@[simp] theorem powerOnReset_pktLen : (powerOnReset s).pktLen = 0#32 := rfl
@[simp] theorem powerOnReset_symCount : (powerOnReset s).symCount = 0#32 := rfl
@[simp] theorem powerOnReset_decSym : (powerOnReset s).decSym = 0#32 := rfl
@[simp] theorem powerOnReset_decPos : (powerOnReset s).decPos = 0#32 := rfl
@[simp] theorem powerOnReset_table : (powerOnReset s).table = resetTable s.config := rfl
@[simp] theorem powerOnReset_pbuf : (powerOnReset s).pbuf = [] := rfl
@[simp] theorem powerOnReset_ebits : (powerOnReset s).ebits = [] := rfl
@[simp] theorem powerOnReset_dbits : (powerOnReset s).dbits = [] := rfl
@[simp] theorem powerOnReset_powerOns : (powerOnReset s).powerOns = s.powerOns + 1 := rfl
@[simp] theorem powerOnReset_hostIn : (powerOnReset s).hostIn = s.hostIn := rfl
@[simp] theorem powerOnReset_hostOut : (powerOnReset s).hostOut = s.hostOut := rfl

end powerOnReset

/-- A command that ends well answers its state with RESULT = OK. -/
theorem finishOk_eq_next {s t : State} : finishOk s = .next t ↔ t = { s with result := .ok } := by
  simp [finishOk, eq_comm]

/-- A command that ends with `raise e` answers the raised state. -/
theorem raiseError_eq_next {e : Result} {s t : State} : raiseError e s = .next t ↔ t = raised e s := by
  simp [raiseError, eq_comm]

end Sys2Proof.Machine
end

