-- ==== Sys2Proof/Laws/SparseMap.lean ====
section
/-! SUPPORT. What the sparse maps do: reading after insert and erase, and the canonical form they keep. -/

namespace Sys2Proof.Machine

variable {α : Type}

@[simp] theorem SMap.get?_nil (i : Nat) : SMap.get? ([] : List (Nat × α)) i = none := rfl

theorem SMap.get?_cons (k : Nat) (v : α) (m : List (Nat × α)) (i : Nat) :
    SMap.get? ((k, v) :: m) i = if k = i then some v else SMap.get? m i := rfl

/-- Reading after `insert`: the written key gives the written value, every other key what it gave. -/
theorem SMap.get?_insert (m : List (Nat × α)) (i j : Nat) (v : α) :
    SMap.get? (SMap.insert m i v) j = if i = j then some v else SMap.get? m j := by
  induction m with
  | nil => rfl
  | cons p m ih =>
    obtain ⟨k, w⟩ := p
    rw [SMap.insert]
    rcases lt_trichotomy i k with h | rfl | h
    · rw [if_pos h, SMap.get?_cons]
    · simp only [lt_irrefl, if_false, if_true, SMap.get?_cons]
      by_cases hij : i = j <;> simp [hij]
    · rw [if_neg (by omega), if_neg (by omega), SMap.get?_cons, SMap.get?_cons, ih]
      by_cases hkj : k = j
      · rw [if_pos hkj, if_pos hkj, if_neg (by omega)]
      · rw [if_neg hkj, if_neg hkj]

/-- Reading after `erase`: nothing at the erased key, every other key what it gave. -/
theorem SMap.get?_erase (m : List (Nat × α)) (i j : Nat) :
    SMap.get? (SMap.erase m i) j = if i = j then none else SMap.get? m j := by
  induction m with
  | nil => simp [SMap.erase]
  | cons p m ih =>
    obtain ⟨k, w⟩ := p
    unfold SMap.erase at ih ⊢
    by_cases hk : k = i
    · subst hk
      simp only [ne_eq, not_true_eq_false, decide_false, Bool.false_eq_true, not_false_eq_true,
        List.filter_cons_of_neg, SMap.get?_cons] at ih ⊢
      rw [ih]
      split_ifs <;> rfl
    · simp only [ne_eq, hk, not_false_eq_true, decide_true, List.filter_cons_of_pos, SMap.get?_cons]
      simp only [ne_eq] at ih
      rw [ih]
      split_ifs <;> first | rfl | omega

/-- The pairs listed after `insert` are the new one and the old ones. -/
theorem SMap.mem_insert {m : List (Nat × α)} {i : Nat} {v : α} {p : Nat × α} (h : p ∈ SMap.insert m i v) :
    p = (i, v) ∨ p ∈ m := by
  induction m with
  | nil => simpa [SMap.insert] using h
  | cons q m ih =>
    obtain ⟨k, w⟩ := q
    unfold SMap.insert at h
    split_ifs at h
    · simpa using h
    · simp only [List.mem_cons] at h ⊢
      tauto
    · simp only [List.mem_cons] at h ⊢
      rcases h with h | h
      · exact .inr (.inl h)
      · exact (ih h).imp_right .inr

/-- `insert` keeps the canonical form. -/
theorem SMap.wf_insert {m : List (Nat × α)} (h : SMap.wf m) (i : Nat) (v : α) : SMap.wf (SMap.insert m i v) := by
  induction m with
  | nil => simp [SMap.insert]
  | cons q m ih =>
    obtain ⟨k, w⟩ := q
    obtain ⟨hq, hm⟩ := List.pairwise_cons.1 h
    unfold SMap.insert
    split_ifs with h1 h2
    · refine List.pairwise_cons.2 ⟨fun p hp => ?_, h⟩
      rcases List.mem_cons.1 hp with rfl | hp
      · exact h1
      · exact lt_trans h1 (hq p hp)
    · subst h2
      exact List.pairwise_cons.2 ⟨hq, hm⟩
    · refine List.pairwise_cons.2 ⟨fun p hp => ?_, ih hm⟩
      rcases SMap.mem_insert hp with rfl | hp
      · show k < i
        omega
      · exact hq p hp

/-- `erase` keeps the canonical form. -/
theorem SMap.wf_erase {m : List (Nat × α)} (h : SMap.wf m) (i : Nat) : SMap.wf (SMap.erase m i) :=
  h.sublist List.filter_sublist

/-- The pairs listed after `erase` are the old ones of other keys. -/
theorem SMap.mem_erase {m : List (Nat × α)} {i : Nat} {p : Nat × α} :
    p ∈ SMap.erase m i ↔ p ∈ m ∧ p.1 ≠ i := by
  simp [SMap.erase]

/-- In canonical form a pair is listed exactly where the map reads it. -/
theorem SMap.get?_eq_some_iff {m : List (Nat × α)} (h : SMap.wf m) (i : Nat) (v : α) :
    SMap.get? m i = some v ↔ (i, v) ∈ m := by
  induction m with
  | nil => simp
  | cons q m ih =>
    obtain ⟨k, w⟩ := q
    obtain ⟨hq, hm⟩ := List.pairwise_cons.1 h
    rw [SMap.get?_cons, List.mem_cons]
    by_cases hk : k = i
    · subst hk
      have : (k, v) ∉ m := fun hmem => lt_irrefl k (hq _ hmem)
      simp [this, eq_comm]
    · simp [hk, ih hm, Ne.symm hk]

/-- Two canonical maps that read the same everywhere are the same list. -/
theorem SMap.ext {m n : List (Nat × α)} (hm : SMap.wf m) (hn : SMap.wf n)
    (h : ∀ i, SMap.get? m i = SMap.get? n i) : m = n := by
  have mem : ∀ p, p ∈ m ↔ p ∈ n := fun p => by
    rw [← SMap.get?_eq_some_iff hm p.1 p.2, h, SMap.get?_eq_some_iff hn]
  have nodup : ∀ {l : List (Nat × α)}, SMap.wf l → l.Nodup := fun hl =>
    hl.imp (fun h e => by subst e; exact lt_irrefl _ h)
  have perm : m.Perm n := (List.perm_ext_iff_of_nodup (nodup hm) (nodup hn)).2 mem
  exact perm.eq_of_pairwise (fun a b _ _ h1 h2 => absurd h1 (by omega)) hm hn

end Sys2Proof.Machine
end

