-- ==== Sys2Proof/Laws/Table.lean ====
section
/-! SUPPORT. The code table: reading after a write, what the lookups and the two checks of TBL_WRITE say, and the
invariant each table update keeps. -/

namespace Sys2Proof.Machine

@[simp] theorem entryAt_nil (i : Nat) : entryAt [] i = Entry.empty := rfl

@[simp] theorem empty_valid : Entry.empty.valid = false := rfl

/-- Reading after `putEntry`: the written index gives the written entry, every other index what it gave. -/
theorem entryAt_putEntry (t : Table) (i j : Nat) (e : Entry) :
    entryAt (putEntry t i e) j = if i = j then e else entryAt t j := by
  unfold entryAt putEntry
  by_cases he : e = Entry.empty
  · rw [if_pos he, SMap.get?_erase]
    split_ifs
    · exact he.symm
    · rfl
  · rw [if_neg he, SMap.get?_insert]
    split_ifs <;> rfl

/-- In canonical form a listed entry is the one its index reads. -/
theorem entryAt_of_mem {t : Table} (h : SMap.wf t) {i : Nat} {e : Entry} (hm : (i, e) ∈ t) : entryAt t i = e := by
  rw [entryAt, (SMap.get?_eq_some_iff h i e).2 hm]
  rfl

/-- A valid entry is listed. -/
theorem mem_of_valid {t : Table} (h : SMap.wf t) {i : Nat} (hv : (entryAt t i).valid = true) :
    (i, entryAt t i) ∈ t := by
  unfold entryAt at hv ⊢
  cases hg : SMap.get? t i with
  | none => simp [hg] at hv
  | some e => exact (SMap.get?_eq_some_iff h i e).1 hg

/-- A symbol found is held by a valid listed entry (40_table.md R130). -/
theorem mem_of_symLookup {t : Table} {s : Word} {i : Nat} (h : symLookup t s = some i) :
    ∃ e, (i, e) ∈ t ∧ e.valid = true ∧ e.sym = s := by
  induction t with
  | nil => simp [symLookup] at h
  | cons p t ih =>
    obtain ⟨k, e⟩ := p
    unfold symLookup at h
    split_ifs at h with hc
    · obtain rfl := Option.some.inj h
      exact ⟨e, List.mem_cons_self, hc⟩
    · obtain ⟨e', hm, hp⟩ := ih h
      exact ⟨e', List.mem_cons_of_mem _ hm, hp⟩

/-- A symbol not found is held by no valid listed entry (40_table.md R130). -/
theorem symLookup_eq_none_iff {t : Table} {s : Word} :
    symLookup t s = none ↔ ∀ p ∈ t, ¬(p.2.valid = true ∧ p.2.sym = s) := by
  induction t with
  | nil => simp [symLookup]
  | cons p t ih =>
    obtain ⟨k, e⟩ := p
    unfold symLookup
    split_ifs with hc
    · simp [hc]
    · rw [ih, List.forall_mem_cons]
      exact ⟨fun h => ⟨hc, h⟩, fun h => h.2⟩

/-- A codeword found is a valid listed entry's (40_table.md R131). -/
theorem mem_of_codeLookup {t : Table} {l c i : Nat} (h : codeLookup t l c = some i) :
    ∃ e, (i, e) ∈ t ∧ e.valid = true ∧ e.len.toNat = l ∧ e.code.toNat = c := by
  induction t with
  | nil => simp [codeLookup] at h
  | cons p t ih =>
    obtain ⟨k, e⟩ := p
    unfold codeLookup at h
    split_ifs at h with hc
    · obtain rfl := Option.some.inj h
      exact ⟨e, List.mem_cons_self, hc⟩
    · obtain ⟨e', hm, hp⟩ := ih h
      exact ⟨e', List.mem_cons_of_mem _ hm, hp⟩

/-- A codeword not found is no valid listed entry's (40_table.md R131). -/
theorem codeLookup_eq_none_iff {t : Table} {l c : Nat} :
    codeLookup t l c = none ↔ ∀ p ∈ t, ¬(p.2.valid = true ∧ p.2.len.toNat = l ∧ p.2.code.toNat = c) := by
  induction t with
  | nil => simp [codeLookup]
  | cons p t ih =>
    obtain ⟨k, e⟩ := p
    unfold codeLookup
    split_ifs with hc
    · simp [hc]
    · rw [ih, List.forall_mem_cons]
      exact ⟨fun h => ⟨hc, h⟩, fun h => h.2⟩

/-- The DUP_SYMBOL check on the listed entries (40_table.md R134). -/
theorem symbolTaken_iff {t : Table} {i : Nat} {s : Word} :
    symbolTaken t i s = true ↔ ∃ p ∈ t, p.1 ≠ i ∧ p.2.valid = true ∧ p.2.sym = s := by
  simp [symbolTaken, and_assoc]

/-- The PREFIX_CONFLICT check on the listed entries (40_table.md R134). -/
theorem prefixTaken_iff {t : Table} {i l c : Nat} :
    prefixTaken t i l c = true ↔
      ∃ p ∈ t, p.1 ≠ i ∧ p.2.valid = true ∧ inPrefix l c p.2.len.toNat p.2.code.toNat = true := by
  simp [prefixTaken, and_assoc]

/-- The prefix relation is symmetric (40_table.md R132). -/
theorem inPrefix_comm (la ca lb cb : Nat) : inPrefix la ca lb cb = inPrefix lb cb la ca := by
  simp [inPrefix, Bool.or_comm]

/-- Two entries apart are apart the other way round. -/
theorem apart_symm {a b : Entry} (h : Entry.apart a b) : Entry.apart b a :=
  ⟨h.1.symm, by rw [entryInPrefix, inPrefix_comm]; exact h.2⟩

/-- Clearing every entry keeps the invariant (40_table.md R133). -/
theorem wf_nil (c : Config) : Table.wf c [] := by
  simp [Table.wf, SMap.wf]

/-- Erasing an entry keeps the invariant (40_table.md R136). -/
theorem wf_eraseEntry {c : Config} {t : Table} (h : Table.wf c t) (i : Nat) : Table.wf c (SMap.erase t i) :=
  ⟨SMap.wf_erase h.1 i, fun p hp => h.2.1 p (SMap.mem_erase.1 hp).1, h.2.2.sublist List.filter_sublist⟩

/-- An entry apart from every other can be inserted (T3 and T4 of 10_state.md R45). -/
theorem apart_insert {t : Table} {i : Nat} {e : Entry} (hw : SMap.wf t)
    (ht : t.Pairwise (fun p q => Entry.apart p.2 q.2)) (he : ∀ p ∈ t, p.1 ≠ i → Entry.apart e p.2) :
    (SMap.insert t i e).Pairwise (fun p q => Entry.apart p.2 q.2) := by
  induction t with
  | nil => simp [SMap.insert]
  | cons q t ih =>
    obtain ⟨k, w⟩ := q
    obtain ⟨hk, hw'⟩ := List.pairwise_cons.1 hw
    obtain ⟨hq, ht'⟩ := List.pairwise_cons.1 ht
    have he' : ∀ p ∈ t, p.1 ≠ i → Entry.apart e p.2 := fun p hp => he p (List.mem_cons_of_mem _ hp)
    rw [SMap.insert]
    rcases lt_trichotomy i k with h | rfl | h
    · rw [if_pos h]
      refine List.pairwise_cons.2 ⟨fun p hp => ?_, ht⟩
      rcases List.mem_cons.1 hp with rfl | hp'
      · exact he _ List.mem_cons_self (show k ≠ i by omega)
      · exact he' p hp' (by have := hk p hp'; dsimp only at this; omega)
    · simp only [lt_irrefl, if_false, if_true]
      exact List.pairwise_cons.2
        ⟨fun p hp => he' p hp (by have := hk p hp; dsimp only at this; omega), ht'⟩
    · rw [if_neg (by omega), if_neg (by omega)]
      refine List.pairwise_cons.2 ⟨fun p hp => ?_, ih hw' ht' he'⟩
      rcases SMap.mem_insert hp with rfl | hp'
      · exact apart_symm (he _ List.mem_cons_self (show k ≠ i by omega))
      · exact hq p hp'

/-- Writing a well-formed entry that is apart from every other keeps the invariant (40_table.md R134). -/
theorem wf_insertEntry {c : Config} {t : Table} (h : Table.wf c t) {i : Nat} {e : Entry} (he : Entry.wf c i e)
    (ha : ∀ p ∈ t, p.1 ≠ i → Entry.apart e p.2) : Table.wf c (SMap.insert t i e) :=
  ⟨SMap.wf_insert h.1 i e,
   fun p hp => by
    rcases SMap.mem_insert hp with rfl | hp'
    · exact he
    · exact h.2.1 p hp',
   apart_insert h.1 h.2.2 ha⟩

/-- A valid entry is listed exactly when reading some index gives it (10_state.md R44). -/
theorem exists_valid_iff {t : Table} (h : SMap.wf t) (P : Nat → Entry → Prop) :
    (∃ p ∈ t, P p.1 p.2 ∧ p.2.valid = true) ↔ ∃ j, P j (entryAt t j) ∧ (entryAt t j).valid = true := by
  constructor
  · rintro ⟨⟨j, e⟩, hm, hp, hv⟩
    have := entryAt_of_mem h hm
    exact ⟨j, by rw [this]; exact ⟨hp, hv⟩⟩
  · rintro ⟨j, hp, hv⟩
    exact ⟨_, mem_of_valid h hv, hp, hv⟩

end Sys2Proof.Machine
end

