-- ==== Sys2Proof/Laws/Commands.lean ====
section
/-! SUPPORT. One inversion lemma per command: everything it can do, the guards included. Later proofs cite these and do
not unfold a meaning. -/

namespace Sys2Proof.Machine

/-- Masking a word with `2^n - 1` leaves it modulo 2^n, whatever `n`. -/
theorem mask_toNat (w : Word) (n : Nat) : (w &&& BitVec.ofNat 32 (2 ^ n - 1)).toNat = w.toNat % 2 ^ n := by
  have hl := w.isLt
  have hp := Nat.two_pow_pos n
  rw [BitVec.toNat_and, BitVec.toNat_ofNat]
  by_cases h : n ≤ 32
  · have := Nat.pow_le_pow_right (n := 2) (by decide) h
    rw [Nat.mod_eq_of_lt (by omega), Nat.and_two_pow_sub_one_eq_mod]
  · obtain ⟨k, rfl⟩ : ∃ k, n = 32 + k := ⟨n - 32, by omega⟩
    obtain ⟨m, hm⟩ : ∃ m, 2 ^ k = m + 1 := ⟨2 ^ k - 1, by have := Nat.two_pow_pos k; omega⟩
    have hmod : (2 ^ (32 + k) - 1) % 2 ^ 32 = 2 ^ 32 - 1 := by
      rw [pow_add, hm]
      omega
    have hle : 2 ^ 32 ≤ 2 ^ (32 + k) := Nat.pow_le_pow_right (by decide) (by omega)
    rw [hmod, Nat.and_two_pow_sub_one_eq_mod, Nat.mod_eq_of_lt hl, Nat.mod_eq_of_lt (by omega)]

/-- The codeword operand is ARG_CODE modulo 2^len (30_encoding.md R105). -/
theorem codeOperand_toNat (s : State) : (codeOperand s).toNat = s.argCode.toNat % 2 ^ s.tblLen.toNat :=
  mask_toNat s.argCode s.tblLen.toNat

/-- A write to ARG_SYM keeps the word modulo 2^SW (10_state.md R39). -/
theorem argSym_toNat (c : Config) (d : Word) : (symMask c d).toNat = d.toNat % 2 ^ c.symBits :=
  mask_toNat d c.symBits

theorem execTblClear_cases {s t : State} (h : execTblClear s = .next t) :
    (s.mode ≠ .idle ∧ t = raised .badMode s) ∨
    (s.mode = .idle ∧ s.config.tableRom = true ∧ t = raised .tableRo s) ∨
    (s.mode = .idle ∧ s.config.tableRom = false ∧ t = { s with table := [], result := .ok }) := by
  unfold execTblClear at h
  split_ifs at h with h1 h2 <;> simp_all [finishOk_eq_next, raiseError_eq_next]

theorem execTblWrite_cases {s t : State} (h : execTblWrite s = .next t) :
    (s.mode ≠ .idle ∧ t = raised .badMode s) ∨
    (s.mode = .idle ∧ s.config.tableRom = true ∧ t = raised .tableRo s) ∨
    (s.mode = .idle ∧ s.config.tableRom = false ∧
      ((∃ e ∈ [Result.badIndex, .badLen, .dupSymbol, .prefixConflict], t = raised e s) ∨
       (s.tblIdx.toNat < s.config.tableDepth ∧ 1 ≤ s.tblLen.toNat ∧ s.tblLen.toNat ≤ s.config.maxLen ∧
        symbolTaken s.table s.tblIdx.toNat s.argSym = false ∧
        prefixTaken s.table s.tblIdx.toNat s.tblLen.toNat (codeOperand s).toNat = false ∧
        t = { s with table := putEntry s.table s.tblIdx.toNat (newEntry s), result := .ok }))) := by
  unfold execTblWrite at h
  split_ifs at h with h1 h2 h3 h4 h5 h6
  · exact .inl ⟨h1, raiseError_eq_next.1 h⟩
  · exact .inr (.inl ⟨by simpa using h1, h2, raiseError_eq_next.1 h⟩)
  all_goals refine .inr (.inr ⟨by simpa using h1, by simpa using h2, ?_⟩)
  · exact .inl ⟨_, by simp, raiseError_eq_next.1 h⟩
  · exact .inl ⟨_, by simp, raiseError_eq_next.1 h⟩
  · exact .inl ⟨_, by simp, raiseError_eq_next.1 h⟩
  · exact .inl ⟨_, by simp, raiseError_eq_next.1 h⟩
  · have h3' : ¬s.config.tableDepth ≤ s.tblIdx.toNat := h3
    have h4' : ¬(s.tblLen.toNat = 0 ∨ s.config.maxLen < s.tblLen.toNat) := h4
    exact .inr ⟨by omega, by omega, by omega, Bool.eq_false_iff.2 h5, Bool.eq_false_iff.2 h6, finishOk_eq_next.1 h⟩

theorem execTblRead_cases {s t : State} (h : execTblRead s = .next t) :
    (s.config.tableDepth ≤ s.tblIdx.toNat ∧ t = raised .badIndex s) ∨
    (s.tblIdx.toNat < s.config.tableDepth ∧ t = { s with
      argSym := (entryAt s.table s.tblIdx.toNat).sym, argCode := (entryAt s.table s.tblIdx.toNat).code,
      tblLen := (entryAt s.table s.tblIdx.toNat).len, tblLenValid := (entryAt s.table s.tblIdx.toNat).valid,
      result := .ok }) := by
  unfold execTblRead at h
  simp only [idxOperand] at h
  split_ifs at h with h1 <;> simp_all [finishOk_eq_next, raiseError_eq_next]

theorem execTblInvalidate_cases {s t : State} (h : execTblInvalidate s = .next t) :
    (s.mode ≠ .idle ∧ t = raised .badMode s) ∨
    (s.mode = .idle ∧ s.config.tableRom = true ∧ t = raised .tableRo s) ∨
    (s.mode = .idle ∧ s.config.tableRom = false ∧
      (t = raised .badIndex s ∨
       t = { s with table := putEntry s.table s.tblIdx.toNat Entry.empty, result := .ok })) := by
  unfold execTblInvalidate at h
  simp only [idxOperand] at h
  split_ifs at h with h1 h2 h3 <;> simp_all [finishOk_eq_next, raiseError_eq_next]

theorem execEncStart_cases {s t : State} (h : execEncStart s = .next t) :
    (s.mode ≠ .idle ∧ t = raised .badMode s) ∨
    (s.mode = .idle ∧ t = { s with ebits := [true], symCount := 0#32, symValid := false, done := false,
                                   mode := .encoding, result := .ok }) := by
  unfold execEncStart at h
  split_ifs at h with h1 <;> simp_all [finishOk_eq_next, raiseError_eq_next, setFlags]

theorem execEncPut_cases {s t : State} (h : execEncPut s = .next t) :
    (s.mode ≠ .encoding ∧ t = raised .badMode s) ∨
    (s.mode = .encoding ∧
      ((symLookup s.table s.argSym = none ∧ t = raised .noSymbol s) ∨
       ∃ i, symLookup s.table s.argSym = some i ∧
        ((s.config.capBits < s.ebits.length + (entryAt s.table i).len.toNat ∧ t = raised .overflow s) ∨
         (s.ebits.length + (entryAt s.table i).len.toNat ≤ s.config.capBits ∧
          t = { s with ebits := s.ebits ++ codeword (entryAt s.table i), symCount := s.symCount + 1#32,
                       result := .ok })))) := by
  unfold execEncPut at h
  simp only [symOperand] at h
  split_ifs at h with h1
  · exact .inl ⟨h1, raiseError_eq_next.1 h⟩
  · refine .inr ⟨by simpa using h1, ?_⟩
    split at h
    · exact .inl ⟨by assumption, raiseError_eq_next.1 h⟩
    · refine .inr ⟨_, by assumption, ?_⟩
      split_ifs at h with h2
      · exact .inl ⟨h2, raiseError_eq_next.1 h⟩
      · exact .inr ⟨by omega, finishOk_eq_next.1 h⟩

theorem execEncFinish_cases {s t : State} (h : execEncFinish s = .next t) :
    (s.mode ≠ .encoding ∧ t = raised .badMode s) ∨
    (s.mode = .encoding ∧ s.symCount = 0#32 ∧ t = raised .empty s) ∨
    (s.mode = .encoding ∧ s.symCount ≠ 0#32 ∧ t = { s with
      pbuf := writeBytes s.pbuf 0 (pack s.ebits s.byteOrder),
      pktLen := BitVec.ofNat 32 (pack s.ebits s.byteOrder).length, mode := .idle, symValid := false, done := true,
      result := .ok }) := by
  unfold execEncFinish at h
  split_ifs at h with h1 h2 <;> simp_all [finishOk_eq_next, raiseError_eq_next, setFlags]

theorem execDecStart_cases {s t : State} (h : execDecStart s = .next t) :
    (s.mode ≠ .idle ∧ t = raised .badMode s) ∨
    (s.mode = .idle ∧ firstOne (unpack (packet s) s.byteOrder) = none ∧
      t = { s with symValid := false, done := false, result := .noSentinel }) ∨
    (s.mode = .idle ∧ ∃ z, firstOne (unpack (packet s) s.byteOrder) = some z ∧
      t = { s with dbits := unpack (packet s) s.byteOrder, decPos := BitVec.ofNat 32 (z + 1), symCount := 0#32,
                   mode := .decoding, symValid := false, done := false, result := .ok }) := by
  unfold execDecStart at h
  split_ifs at h with h1
  · exact .inl ⟨h1, raiseError_eq_next.1 h⟩
  · dsimp only at h
    rw [show packet (setFlags false false s) = packet s from rfl] at h
    split at h
    · exact .inr (.inl ⟨by simpa using h1, by assumption,
        by simpa [raiseError_eq_next, raised, setFlags, aborts] using h⟩)
    · exact .inr (.inr ⟨by simpa using h1, _, by assumption, by simpa [finishOk_eq_next, setFlags] using h⟩)

theorem execDecNext_cases {s t : State} (h : execDecNext s = .next t) :
    (s.mode ≠ .decoding ∧ t = raised .badMode s) ∨
    (s.mode = .decoding ∧
      ((s.decPos.toNat = s.dbits.length ∧
        t = { s with symValid := false, done := true, mode := .idle, result := .ok }) ∨
       (s.decPos.toNat ≠ s.dbits.length ∧
        greedyMatch s.table s.dbits s.decPos.toNat s.config.maxLen 1 = none ∧
        t = { s with symValid := false, mode := .idle, result := .decode }) ∨
       (s.decPos.toNat ≠ s.dbits.length ∧
        ∃ i k, greedyMatch s.table s.dbits s.decPos.toNat s.config.maxLen 1 = some (i, k) ∧
          t = { s with decSym := (entryAt s.table i).sym, decPos := BitVec.ofNat 32 (s.decPos.toNat + k),
                       symCount := s.symCount + 1#32, symValid := true, result := .ok }))) := by
  unfold execDecNext at h
  split_ifs at h with h1 h2
  · exact .inl ⟨h1, raiseError_eq_next.1 h⟩
  · exact .inr ⟨by simpa using h1, .inl ⟨h2, by simpa [finishOk_eq_next] using h⟩⟩
  · refine .inr ⟨by simpa using h1, .inr ?_⟩
    split at h
    · exact .inl ⟨h2, by assumption, by simpa [raiseError_eq_next, raised, aborts] using h⟩
    · exact .inr ⟨h2, _, _, by assumption, by simpa [finishOk_eq_next] using h⟩

/-- What the loop of DEC_NEXT finds (42_decoder.md R193): a codeword of the table at the position, of one of the lengths
tried, inside the sequence. -/
theorem greedyMatch_some {t : Table} {d : Bits} {p fuel k i l : Nat} (h : greedyMatch t d p fuel k = some (i, l)) :
    k ≤ l ∧ l < k + fuel ∧ p + l ≤ d.length ∧ codeLookup t l (bitsToNat (slice d p (p + l))) = some i := by
  induction fuel generalizing k with
  | zero => simp [greedyMatch] at h
  | succ fuel ih =>
    unfold greedyMatch at h
    split_ifs at h with h1
    split at h
    · simp only [Option.some.injEq, Prod.mk.injEq] at h
      obtain ⟨rfl, rfl⟩ := h
      exact ⟨le_refl _, by omega, by omega, by assumption⟩
    · obtain ⟨a, b, c, e⟩ := ih h
      exact ⟨by omega, by omega, c, e⟩

/-- Where the loop of DEC_NEXT finds nothing, no length it could try inside the sequence is a codeword (42_decoder.md
R193). -/
theorem greedyMatch_none {t : Table} {d : Bits} {p fuel k : Nat} (h : greedyMatch t d p fuel k = none) :
    ∀ l, k ≤ l → l < k + fuel → p + l ≤ d.length → codeLookup t l (bitsToNat (slice d p (p + l))) = none := by
  induction fuel generalizing k with
  | zero => intro l h1 h2; omega
  | succ fuel ih =>
    intro l h1 h2 h3
    unfold greedyMatch at h
    rw [if_neg (by omega)] at h
    split at h
    · cases h
    · rcases Nat.eq_or_lt_of_le h1 with rfl | hlt
      · assumption
      · exact ih h l (by omega) (by omega) h3

end Sys2Proof.Machine
end

