-- ==== Sys2Proof/Laws/Memory.lean ====
section
/-! SUPPORT. The packet buffer: reading after a write, and the canonical form every operation keeps. -/

namespace Sys2Proof.Machine

/-- Reading one byte after one write. -/
theorem get?_writeByte (m : List Host.Cell) (i j : Nat) (b : Byte) :
    SMap.get? (writeByte m i b) j = if i = j then some b else SMap.get? m j :=
  SMap.get?_insert m i j b

/-- Reading one byte after a block of writes. -/
theorem get?_writeBytes (bs : List Byte) (m : List Host.Cell) (i j : Nat) :
    SMap.get? (writeBytes m i bs) j =
      if i ≤ j ∧ j < i + bs.length then bs[j - i]? else SMap.get? m j := by
  induction bs generalizing m i with
  | nil =>
    rw [if_neg (by simp)]
    rfl
  | cons b bs ih =>
    rw [writeBytes, ih, get?_writeByte, List.length_cons]
    by_cases hj : i = j
    · subst hj
      rw [if_neg (by omega), if_pos rfl, if_pos (by omega)]
      simp
    · by_cases hr : i + 1 ≤ j ∧ j < i + 1 + bs.length
      · rw [if_pos hr, if_pos (by omega), show j - i = (j - (i + 1)) + 1 by omega, List.getElem?_cons_succ]
      · rw [if_neg hr, if_neg hj, if_neg (by omega)]

/-- A write keeps the canonical form. -/
theorem Memory.wf_writeByte {m : List Host.Cell} (h : Memory.wf m) (i : Nat) (b : Byte) : Memory.wf (writeByte m i b) :=
  SMap.wf_insert h i b

/-- A block of writes keeps the canonical form. -/
theorem Memory.wf_writeBytes {m : List Host.Cell} (h : Memory.wf m) (i : Nat) (bs : List Byte) :
    Memory.wf (writeBytes m i bs) := by
  induction bs generalizing m i with
  | nil => exact h
  | cons b bs ih => exact ih (Memory.wf_writeByte h i b) (i + 1)

/-- A power-on reset leaves the canonical form with nothing listed. -/
theorem Memory.wf_powerOnReset (s : State) : Memory.wf (powerOnReset s).pbuf := List.Pairwise.nil

/-- The reset memory is canonical. -/
theorem Memory.wf_reset : Memory.wf State.reset.pbuf := List.Pairwise.nil

/-- The bytes listed after a write are the new one and the old ones. -/
theorem mem_writeByte {m : List Host.Cell} {i : Nat} {b : Byte} {p : Host.Cell} (h : p ∈ writeByte m i b) :
    p.1 = i ∨ p ∈ m :=
  (SMap.mem_insert h).imp_left (fun h => by rw [h])

/-- The bytes listed after a block of writes lie in the block or were listed. -/
theorem mem_writeBytes {bs : List Byte} {m : List Host.Cell} {i : Nat} {p : Host.Cell}
    (h : p ∈ writeBytes m i bs) : (i ≤ p.1 ∧ p.1 < i + bs.length) ∨ p ∈ m := by
  induction bs generalizing m i with
  | nil => exact .inr h
  | cons b bs ih =>
    rw [List.length_cons]
    rcases ih h with h | h
    · exact .inl (by omega)
    · exact (mem_writeByte h).imp_left (fun h => by omega)

@[simp] theorem length_packet (s : State) : (packet s).length = s.pktLen.toNat := by
  simp [packet]

/-- One byte of PBUF after a block of writes from index 0 on, in any state that holds them. -/
theorem readByte_of_writeBytes {s t : State} {bs : List Byte} (hp : t.pbuf = writeBytes s.pbuf 0 bs)
    (ho : t.powerOns = s.powerOns) (k : Nat) : readByte t k = (bs[k]?).getD (readByte s k) := by
  unfold readByte
  rw [hp, get?_writeBytes, ho]
  by_cases h : k < bs.length
  · simp [h]
  · simp [h]

end Sys2Proof.Machine
end

