-- ==== Sys2Proof/Laws/PerInstr.lean ====
section
/-! SUPPORT. Statements about every command as syntax, one lemma per constructor. -/

namespace Sys2Proof.Laws.CommandWord

/-- The word of a command: RSV zero, OP the command's opcode, and the command is well formed (30_encoding.md R100). -/
def Statement (i : Instr) : Prop :=
  rsvField (encode i) = 0#24 ∧ opField (encode i) = opcode i ∧ i.wf = true

theorem nop : Statement .nop := by unfold Statement; decide
theorem tblClear : Statement .tblClear := by unfold Statement; decide
theorem tblWrite : Statement .tblWrite := by unfold Statement; decide
theorem tblRead : Statement .tblRead := by unfold Statement; decide
theorem tblInvalidate : Statement .tblInvalidate := by unfold Statement; decide
theorem encStart : Statement .encStart := by unfold Statement; decide
theorem encPut : Statement .encPut := by unfold Statement; decide
theorem encFinish : Statement .encFinish := by unfold Statement; decide
theorem decStart : Statement .decStart := by unfold Statement; decide
theorem decNext : Statement .decNext := by unfold Statement; decide
theorem abort : Statement .abort := by unfold Statement; decide
theorem softReset : Statement .softReset := by unfold Statement; decide

end Sys2Proof.Laws.CommandWord
end

