-- ==== Sys2Proof/Laws/Step.lean ====
section
/-! SUPPORT. The step and the bus: one lemma per kind of event and target. -/

namespace Sys2Proof.Machine

theorem step_nil {s : State} (h : s.hostIn = []) : step s = .next s := by
  simp [step, h]

theorem step_cons {s : State} {ev : HostEvent} {rest : List HostEvent} (h : s.hostIn = ev :: rest) :
    step s = deliver ev { s with hostIn := rest } := by
  simp [step, h]

/-- The word of CMD is reached by its four byte addresses, in every build (20_memory.md R71, R72). -/
theorem target_cmd (c : Config) (addr : Word) (h : wordAddr addr = 0x18) : target c addr = .reg .cmd := by
  simp [target, h, pbufBase, regTarget]

@[simp] theorem wordAddr_cmdAddr : wordAddr cmdAddr = 0x18 := by decide

/-- A write to the word of CMD runs the command word (10_state.md R38). -/
theorem busWrite_cmd (addr w : Word) (s : State) (h : wordAddr addr = 0x18) : busWrite addr w s = writeCmd w s := by
  rw [busWrite, target_cmd s.config addr h]
  rfl

/-- `addr & ~3` clears the two low bits (20_memory.md R71). -/
theorem wordAddr_eq (addr : Word) : wordAddr addr = addr.toNat / 4 * 4 := by
  have h : addr &&& ~~~3#32 = (addr >>> 2) <<< 2 := by
    ext i hi
    simp only [BitVec.getElem_and, BitVec.getElem_not, BitVec.getElem_shiftLeft]
    rcases Nat.lt_or_ge i 2 with h2 | h2
    · interval_cases i <;> simp
    · have : (3#32)[i] = false := by
        rw [← BitVec.getLsbD_eq_getElem, BitVec.getLsbD_ofNat]
        have : Nat.testBit 3 i = false := Nat.testBit_eq_false_of_lt (lt_of_lt_of_le (by decide) (Nat.pow_le_pow_right (by decide) h2))
        simp [this]
      simp [this, show ¬ i < 2 by omega, show 2 + (i - 2) = i by omega, BitVec.getLsbD_eq_getElem, hi]
  rw [wordAddr, h]
  have := addr.isLt
  simp only [BitVec.toNat_shiftLeft, BitVec.toNat_ushiftRight, Nat.shiftRight_eq_div_pow, Nat.shiftLeft_eq]
  omega

/-- Only the four addresses of CMD reach it. -/
theorem target_ne_cmd {c : Config} {addr : Word} (h : wordAddr addr ≠ 0x18) : target c addr ≠ .reg .cmd := by
  intro hc
  unfold target at hc
  split_ifs at hc
  unfold regTarget at hc
  split at hc <;> simp_all

/-- What a write to a register other than CMD does to the block. -/
theorem writeReg_cases {r : Reg} {d : Word} {s t : State} (hr : r ≠ .cmd) (h : writeReg r d s = .next t) :
    t = s ∨ (r = .ctrl ∧ t = writeCtrl d s) ∨ (r = .pktLen ∧ t = writePktLen d s) ∨
      t = { s with argSym := symMask s.config d } ∨ t = { s with argCode := d } ∨
      t = { s with tblIdx := idxField d } ∨ t = { s with tblLen := lenField d } := by
  cases r <;> simp_all [writeReg]

/-- What a write of a command word does: the command, or ILLEGAL_CMD (43_control.md R223). -/
theorem writeCmd_cases {w : Word} {s t : State} (h : writeCmd w s = .next t) :
    (∃ i, decode w = .ok i ∧ exec i s = .next t) ∨ ((∃ r, decode w = .error r) ∧ t = raised .illegalCmd s) := by
  unfold writeCmd at h
  split at h
  · exact .inl ⟨_, by assumption, h⟩
  · exact .inr ⟨⟨_, by assumption⟩, raiseError_eq_next.1 h⟩

/-- What one event does to the block: a power-on, a read, a CMD write, or another write. -/
theorem deliver_cases {ev : HostEvent} {s t : State} (h : deliver ev s = .next t) :
    (ev = .powerOn ∧ t = powerOnReset s) ∨
    (∃ a, ev = .read a ∧ t = respond (busRead s a) s) ∨
    (∃ a w, ev = .write a w ∧ wordAddr a = 0x18 ∧ writeCmd w s = .next t) ∨
    (∃ a w, ev = .write a w ∧ wordAddr a ≠ 0x18 ∧
      (t = s ∨ (target s.config a = .reg .ctrl ∧ t = writeCtrl w s) ∨
       (target s.config a = .reg .pktLen ∧ t = writePktLen w s) ∨ t = { s with argSym := symMask s.config w } ∨
       t = { s with argCode := w } ∨ t = { s with tblIdx := idxField w } ∨ t = { s with tblLen := lenField w } ∨
       ∃ i, target s.config a = .pbuf i ∧ t = writePbuf i w s)) := by
  cases ev with
  | powerOn => exact .inl ⟨rfl, by simpa [deliver, eq_comm] using h⟩
  | read a => exact .inr (.inl ⟨a, rfl, by simpa [deliver, eq_comm] using h⟩)
  | write a w =>
    refine .inr (.inr ?_)
    by_cases ha : wordAddr a = 0x18
    · rw [deliver, busWrite_cmd a w s ha] at h
      exact .inl ⟨a, w, rfl, ha, h⟩
    · refine .inr ⟨a, w, rfl, ha, ?_⟩
      rw [deliver, busWrite] at h
      split at h
      next r hr =>
        have hc : r ≠ .cmd := fun e => target_ne_cmd ha (e ▸ hr)
        rcases writeReg_cases hc h with h | ⟨e, h⟩ | ⟨e, h⟩ | h | h | h | h
        · exact .inl h
        · exact .inr (.inl ⟨e ▸ hr, h⟩)
        · exact .inr (.inr (.inl ⟨e ▸ hr, h⟩))
        · exact .inr (.inr (.inr (.inl h)))
        · exact .inr (.inr (.inr (.inr (.inl h))))
        · exact .inr (.inr (.inr (.inr (.inr (.inl h)))))
        · exact .inr (.inr (.inr (.inr (.inr (.inr (.inl h))))))
      next i hi => exact .inr (.inr (.inr (.inr (.inr (.inr (.inr ⟨i, hi, by simpa [eq_comm] using h⟩))))))
      all_goals exact .inl (by simpa [eq_comm] using h)

/-- Everything a step can do: nothing without an access, else the next event. -/
theorem step_next_cases {s t : State} (h : step s = .next t) :
    (s.hostIn = [] ∧ t = s) ∨
      ∃ ev rest, s.hostIn = ev :: rest ∧ deliver ev { s with hostIn := rest } = .next t := by
  unfold step at h
  split at h
  · exact .inl ⟨by assumption, by simpa using h.symm⟩
  · exact .inr ⟨_, _, by assumption, h⟩

/-- A CTRL write is rejected outside IDLE, and else sets the byte order (20_memory.md R76). -/
theorem writeCtrl_cases (d : Word) (s : State) :
    (s.mode ≠ .idle ∧ writeCtrl d s = raised .badMode s) ∨
    (s.mode = .idle ∧ writeCtrl d s = { s with byteOrder := byteOrderField d }) := by
  unfold writeCtrl
  split_ifs with h
  · exact .inl ⟨h, rfl⟩
  · exact .inr ⟨by simpa using h, rfl⟩

/-- A PKT_LEN write: rejected outside IDLE, then rejected beyond PBUF_BYTES, else stored (20_memory.md R76). -/
theorem writePktLen_cases (d : Word) (s : State) :
    (s.mode ≠ .idle ∧ writePktLen d s = raised .badMode s) ∨
    (s.mode = .idle ∧ s.config.pbufBytes < d.toNat ∧ writePktLen d s = raised .range s) ∨
    (s.mode = .idle ∧ d.toNat ≤ s.config.pbufBytes ∧ writePktLen d s = { s with pktLen := d }) := by
  unfold writePktLen
  split_ifs with h h2
  · exact .inl ⟨h, rfl⟩
  · exact .inr (.inl ⟨by simpa using h, h2, rfl⟩)
  · exact .inr (.inr ⟨by simpa using h, by omega, rfl⟩)

/-- A PBUF write is rejected outside IDLE, and else stores one byte (20_memory.md R75). -/
theorem writePbuf_cases (i : Nat) (d : Word) (s : State) :
    (s.mode ≠ .idle ∧ writePbuf i d s = raised .badMode s) ∨
    (s.mode = .idle ∧ writePbuf i d s = { s with pbuf := writeByte s.pbuf i (byteField d) }) := by
  unfold writePbuf
  split_ifs with h
  · exact .inl ⟨h, rfl⟩
  · exact .inr ⟨by simpa using h, rfl⟩

/-- A read at a register's offset reads that register, in every build. -/
theorem busRead_offset (s : State) (a : Word) (r : Reg) (h : wordAddr a = r.offset) : busRead s a = readReg s r := by
  unfold busRead target
  rw [h]
  cases r <;> simp [Reg.offset, pbufBase, regTarget]

/-- A write at a register's offset writes that register, in every build. -/
theorem busWrite_offset (s : State) (a d : Word) (r : Reg) (h : wordAddr a = r.offset) :
    busWrite a d s = writeReg r d s := by
  unfold busWrite target
  rw [h]
  cases r <;> simp [Reg.offset, pbufBase, regTarget]

/-- The register window is reserved from 0x44 on (20_memory.md R72). -/
theorem regTarget_reserved {n : Nat} (h : 0x44 ≤ n) : regTarget n = .reserved := by
  unfold regTarget
  split <;> first | omega | rfl

/-- The addresses of the PBUF window (20_memory.md R72). -/
theorem target_window {c : Config} {a : Word} {i : Nat} (hi : i < c.pbufBytes) (h : a.toNat / 4 = 0x4000 + i) :
    target c a = .pbuf i := by
  unfold target
  rw [wordAddr_eq, h, show pbufBase = 0x10000 from rfl, if_neg (by omega),
    show ((0x4000 + i) * 4 - 0x10000) / 4 = i by omega, if_pos hi]

/-- Only the addresses of a register reach it. -/
theorem addr_of_target_reg {c : Config} {a : Word} {r : Reg} (h : target c a = .reg r) : a.toNat / 4 = r.offset / 4 := by
  unfold target at h
  rw [wordAddr_eq] at h
  split_ifs at h
  generalize hn : a.toNat / 4 * 4 = n at h
  unfold regTarget at h
  split at h <;> simp at h <;> subst h <;> simp [Reg.offset] <;> omega

/-- Only the addresses of the PBUF window reach a byte of PBUF. -/
theorem addr_of_target_pbuf {c : Config} {a : Word} {i : Nat} (h : target c a = .pbuf i) :
    i < c.pbufBytes ∧ a.toNat / 4 = 0x4000 + i := by
  unfold target at h
  rw [wordAddr_eq, show pbufBase = 0x10000 from rfl] at h
  split_ifs at h with h1 h2
  · unfold regTarget at h
    split at h <;> simp at h
  · simp only [Target.pbuf.injEq] at h
    subst h
    exact ⟨h2, by omega⟩

end Sys2Proof.Machine
end

