-- ==== Sys2Proof/Tests/Slice0.lean ====
section
/-! SUPPORT. Tests of the model. Expected results come from spec/95_test_vectors.md and the rules named beside each test,
never from the model. The last part gives, for each statement with hypotheses, a state and operands that meet them. -/

namespace Sys2Proof.Machine.Tests

/-! ## Small states -/

/-- The table T_S (95_test_vectors.md, Conventions): A = "1", B = "00", C = "010", D = "011". -/
def tS : Table :=
  [(0, ⟨true, 0x41#32, 1#6, 0x1#32⟩), (1, ⟨true, 0x42#32, 2#6, 0x0#32⟩),
   (2, ⟨true, 0x43#32, 3#6, 0x2#32⟩), (3, ⟨true, 0x44#32, 3#6, 0x3#32⟩)]

/-- S0 with T_S loaded. -/
def sIdle : State := { State.reset with table := tS }

/-- After ENC_START. -/
def sEnc : State := { sIdle with mode := .encoding, ebits := [true] }

/-- EBITS of the source scenario (95_test_vectors.md 1.2): "11111000000010010011". -/
def payload : Bits :=
  [true, true, true, true, true, false, false, false, false, false, false, false, true, false, false, true, false, false,
   true, true]

/-- After the ten ENC_PUTs of AAAABBBCCD. -/
def sTen : State := { sIdle with mode := .encoding, ebits := payload, symCount := 10#32, argSym := 0x44#32 }

/-- The packet 0F 80 93 in PBUF, IDLE. -/
def sPkt : State := { sIdle with pbuf := [(0, 0x0F#8), (1, 0x80#8), (2, 0x93#8)], pktLen := 3#32 }

/-- After DEC_START of that packet. -/
def sDec : State :=
  { sPkt with mode := .decoding, dbits := [false, false, false, false] ++ payload, decPos := 5#32 }

/-- After its last symbol. -/
def sEnd : State := { sDec with decPos := 24#32, symCount := 10#32, symValid := true }

/-- The ROM build of 95_test_vectors.md 2.3: T[0] = A:"1", T[1] = B:"0". -/
def tRom : Table := [(0, ⟨true, 0x41#32, 1#6, 0x1#32⟩), (1, ⟨true, 0x42#32, 1#6, 0x0#32⟩)]

def sRom : State :=
  { State.reset with config := { Config.default with tableRom := true, tableInit := tRom }, table := tRom }

/-- The operands of `tblw i, s, c, l` in place. -/
def operands (i : BitVec 16) (s c : Word) (l : BitVec 6) (t : State) : State :=
  { t with tblIdx := i, argSym := s, argCode := c, tblLen := l }

/-- The state a command or a step leaves, if it leaves one. -/
def after : Host.Outcome State Fault Refusal → Option State
  | .next t => some t
  | .fault _ => none
  | .refused _ => none

/-- The STATUS word the host reads after a command. -/
def statusAfter (i : Instr) (s : State) : Option Word := (after (exec i s)).map statusWord

/-- The state after one event. -/
def stepOn (ev : HostEvent) (s : State) : Option State := after (step { s with hostIn := [ev] })

/-- What one read returns. -/
def readBack (ev : HostEvent) (s : State) : Option (List Word) := (stepOn ev s).map (·.hostOut)

/-! ## Decoding: the twelve words of 30_encoding.md R100 and R101, reserved field and opcode bit by bit -/

theorem test_decode_control :
    decode (0#24 ++ 0b00000000#8) = .ok .nop ∧ decode (0#24 ++ 0b11110000#8) = .ok .abort ∧
    decode (0#24 ++ 0b11111111#8) = .ok .softReset := by decide

theorem test_decode_table :
    decode (0#24 ++ 0b00000001#8) = .ok .tblClear ∧ decode (0#24 ++ 0b00000010#8) = .ok .tblWrite ∧
    decode (0#24 ++ 0b00000011#8) = .ok .tblRead ∧ decode (0#24 ++ 0b00000100#8) = .ok .tblInvalidate := by decide

theorem test_decode_encoder :
    decode (0#24 ++ 0b00010000#8) = .ok .encStart ∧ decode (0#24 ++ 0b00010001#8) = .ok .encPut ∧
    decode (0#24 ++ 0b00010010#8) = .ok .encFinish := by decide

theorem test_decode_decoder :
    decode (0#24 ++ 0b00100000#8) = .ok .decStart ∧ decode (0#24 ++ 0b00100001#8) = .ok .decNext := by decide

/-- 30_encoding.md R102: the ends of the unassigned opcode ranges, and a legal opcode with a reserved bit set. -/
theorem test_decode_illegal :
    decode 0x05#32 = .error .unassignedOpcode ∧ decode 0x0F#32 = .error .unassignedOpcode ∧
    decode 0x13#32 = .error .unassignedOpcode ∧ decode 0x1F#32 = .error .unassignedOpcode ∧
    decode 0x22#32 = .error .unassignedOpcode ∧ decode 0xEF#32 = .error .unassignedOpcode ∧
    decode 0xF1#32 = .error .unassignedOpcode ∧ decode 0xFE#32 = .error .unassignedOpcode ∧
    decode 0x110#32 = .error .reservedBits ∧ decode 0xFFFFFFFF#32 = .error .reservedBits := by decide

theorem test_decode_table_word :
    decodeTableWord 32 0x21 = some .decNext ∧ decodeTableWord 32 0xFF = some .softReset ∧
    decodeTableWord 32 0x100 = none := by decide

/-- 10_state.md R38: the word is fetched and runs. -/
theorem test_fetch_word : (after (step (sIdle.withFetchWord 32 0x10))).map (·.mode) = some .encoding := by decide

/-! ## WellFormed smoke: an ill-formed term for each check -/

/-- A command has no operand, so none is ill-formed (30_encoding.md R100). -/
theorem test_wf_instr : Instr.wf .nop = true ∧ Instr.wf .softReset = true := by decide

theorem test_wf_config : Config.wf Config.default := by decide
theorem test_wf_order_low : ¬Config.wf { Config.default with order := 0 } := by decide
theorem test_wf_order_high : ¬Config.wf { Config.default with order := 5 } := by decide
theorem test_wf_maxlen_low : ¬Config.wf { Config.default with maxLen := 0 } := by decide
theorem test_wf_maxlen_high : ¬Config.wf { Config.default with maxLen := 33 } := by decide
theorem test_wf_depth_low : ¬Config.wf { Config.default with tableDepth := 0 } := by decide
theorem test_wf_depth_high : ¬Config.wf { Config.default with tableDepth := 65537 } := by decide
theorem test_wf_pbuf_low : ¬Config.wf { Config.default with pbufBytes := 0 } := by decide
theorem test_wf_pbuf_high : ¬Config.wf { Config.default with pbufBytes := 2 ^ 24 + 1 } := by decide

/-- TABLE_INIT with the same symbol twice is no build (10_state.md R45). -/
theorem test_wf_image : ¬Config.wf { Config.default with
    tableInit := [(0, ⟨true, 0x41#32, 1#6, 0#32⟩), (1, ⟨true, 0x41#32, 1#6, 1#32⟩)] } := by decide

theorem test_wf_table : Table.wf Config.default tS := by decide

theorem test_wf_table_unsorted :
    ¬Table.wf Config.default [(1, ⟨true, 0x41#32, 1#6, 0#32⟩), (0, ⟨true, 0x42#32, 1#6, 1#32⟩)] := by decide

theorem test_wf_table_index : ¬Table.wf Config.default [(256, ⟨true, 0x41#32, 1#6, 0#32⟩)] := by decide

/-- T5: an entry that is not valid is all zero, and the canonical list leaves it out. -/
theorem test_wf_table_invalid : ¬Table.wf Config.default [(0, ⟨false, 0x41#32, 1#6, 0#32⟩)] := by decide

theorem test_wf_table_symbol_width : ¬Table.wf Config.default [(0, ⟨true, 0x100#32, 1#6, 0#32⟩)] := by decide

theorem test_wf_table_len_zero : ¬Table.wf Config.default [(0, ⟨true, 0x41#32, 0#6, 0#32⟩)] := by decide

theorem test_wf_table_len_high : ¬Table.wf Config.default [(0, ⟨true, 0x41#32, 33#6, 0#32⟩)] := by decide

theorem test_wf_table_code : ¬Table.wf Config.default [(0, ⟨true, 0x41#32, 2#6, 4#32⟩)] := by decide

theorem test_wf_table_symbol_twice :
    ¬Table.wf Config.default [(0, ⟨true, 0x41#32, 1#6, 0#32⟩), (1, ⟨true, 0x41#32, 1#6, 1#32⟩)] := by decide

theorem test_wf_table_prefix :
    ¬Table.wf Config.default [(0, ⟨true, 0x41#32, 1#6, 1#32⟩), (1, ⟨true, 0x42#32, 2#6, 3#32⟩)] := by decide

/-- The canonical form of PBUF's list. -/
theorem test_wf_memory : ¬Memory.wf [(1, 0#8), (0, 0#8)] ∧ ¬Memory.wf [(0, 0#8), (0, 1#8)] := by decide

/-! ## Bit-strings and packets (95_test_vectors.md 2.1) -/

theorem test_bits : bits 0b010 3 = [false, true, false] ∧ bitsToNat [false, true, true] = 3 := by decide

theorem test_pack :
    pack payload .big = [0x0F#8, 0x80#8, 0x93#8] ∧ pack payload .little = [0x93#8, 0x80#8, 0x0F#8] := by decide

theorem test_pack_bytes :
    pack [true] .big = [0x01#8] ∧ pack (List.replicate 8 true) .little = [0xFF#8] ∧
    pack [true, true, true, false, false, false, false, false, true] .little = [0xC1#8, 0x01#8] := by decide

theorem test_unpack :
    unpack [0x0F#8, 0x80#8, 0x93#8] .big = [false, false, false, false] ++ payload ∧
    unpack [0x93#8, 0x80#8, 0x0F#8] .little = [false, false, false, false] ++ payload := by decide

/-! ## The bus (95_test_vectors.md 2.2) -/

theorem test_read_build_registers :
    readBack (rd .id) State.reset = some [0x48554646#32] ∧ readBack (rd .config) State.reset = some [0x2001#32] ∧
    readBack (rd .config) sRom = some [0x2011#32] ∧ readBack (rd .cfgDepth) State.reset = some [0x100#32] ∧
    readBack (rd .cfgPbuf) State.reset = some [0x1000#32] ∧ readBack (.read 0x03#32) State.reset = some [0x48554646#32] := by
  decide

theorem test_read_order_three :
    readBack (rd .config) { State.reset with config := { Config.default with order := 3 } } = some [0x2003#32] := by decide

theorem test_read_views : readBack (rd .tblCount) sIdle = some [4#32] ∧ readBack (rd .encBits) sTen = some [20#32] := by
  decide

theorem test_read_reserved :
    readBack (.read 0x44#32) sTen = some [0#32] ∧ readBack (.read 0xFFFC#32) sTen = some [0#32] ∧
    readBack (rdPbuf 4096) sTen = some [0#32] ∧ readBack (rd .cmd) sTen = some [0#32] := by decide

theorem test_write_reserved :
    stepOn (.write 0x44#32 5#32) sIdle = some sIdle ∧ stepOn (wr .status 0xFFFFFFFF#32) sIdle = some sIdle ∧
    stepOn (wr .id 0#32) sIdle = some sIdle := by decide

theorem test_write_operands :
    (stepOn (wr .tblIdx 0x12345#32) sIdle).map (busRead · 0x24#32) = some 0x2345#32 ∧
    (stepOn (wr .tblLen 0xFFFFFFFF#32) sIdle).map (busRead · 0x28#32) = some 0x3F#32 ∧
    (stepOn (wr .argSym 0x12345641#32) sIdle).map (busRead · 0x1C#32) = some 0x41#32 ∧
    (stepOn (wr .argCode 0xDEADBEEF#32) sIdle).map (busRead · 0x20#32) = some 0xDEADBEEF#32 ∧
    (stepOn (wr .ctrl 0xFFFFFFFF#32) sIdle).map (busRead · 0x10#32) = some 1#32 := by decide

theorem test_write_symbol_order_three :
    (stepOn (wr .argSym 0xFF434241#32) { State.reset with config := { Config.default with order := 3 } }).map
      (busRead · 0x1C#32) = some 0x00434241#32 := by decide

theorem test_write_pbuf :
    (stepOn (wrPbuf 4095 0x1FF#32) sIdle).map (busRead · 0x13FFC#32) = some 0xFF#32 ∧
    (stepOn (.write 0x10003#32 0x77#32) sIdle).map (busRead · 0x10000#32) = some 0x77#32 := by decide

theorem test_write_pktlen :
    (stepOn (wr .pktLen 4097#32) sIdle).map (fun t => (statusWord t, t.pktLen)) = some (0x0A00#32, 0#32) ∧
    (stepOn (wr .pktLen 4096#32) { sIdle with result := .range }).map (fun t => (statusWord t, t.pktLen)) =
      some (0x0A00#32, 0x1000#32) := by decide

theorem test_write_outside_idle :
    (stepOn (wr .ctrl 1#32) sEnc).map (fun t => (statusWord t, t.byteOrder)) = some (0x0201#32, .big) ∧
    (stepOn (wr .pktLen 1#32) { sDec with symValid := true }).map (fun t => (statusWord t, t.pktLen)) =
      some (0x0206#32, 3#32) ∧
    (stepOn (wrPbuf 0 0x55#32) { sDec with mode := .encoding }).map (fun t => (statusWord t, readByte t 0)) =
      some (0x0201#32, 0x0F#8) := by decide

theorem test_write_illegal_command :
    (stepOn (wr .cmd 0x13#32) sEnc).map statusWord = some 0x0101#32 ∧
    (stepOn (wr .cmd 0x110#32) sEnc).map statusWord = some 0x0101#32 := by decide

theorem test_power_on :
    (stepOn .powerOn sEnd).map (fun t => (statusWord t, t.table.length, t.pbuf.length, t.dbits.length, t.pktLen)) =
      some (0#32, 0, 0, 0, 0#32) ∧
    (stepOn .powerOn sRom).map (·.table) = some tRom := by decide

/-! ## Control commands (95_test_vectors.md 2.7) -/

theorem test_nop : statusAfter .nop { sEnc with result := .illegalCmd } = some 0x0001#32 := by decide

theorem test_abort :
    statusAfter .abort sEnc = some 0#32 ∧ statusAfter .abort { sIdle with done := true } = some 0#32 ∧
    (after (exec .abort sTen)).map (·.ebits.length) = some 20 := by decide

theorem test_soft_reset :
    (after (exec .softReset { sPkt with byteOrder := .little, done := true })).map
      (fun t => (statusWord t, validCount t.table, t.pktLen, t.byteOrder, readByte t 0)) =
      some (0#32, 0, 0#32, .big, 0x0F#8) ∧
    (after (exec .softReset sRom)).map (fun t => validCount t.table) = some 2 := by decide

/-! ## Table commands (95_test_vectors.md 2.3) -/

theorem test_tbl_clear :
    (after (exec .tblClear sIdle)).map (fun t => (statusWord t, validCount t.table)) = some (0#32, 0) ∧
    statusAfter .tblClear sRom = some 0x0D00#32 ∧
    statusAfter .tblClear { sRom with mode := .encoding } = some 0x0201#32 := by decide

theorem test_tbl_write :
    (after (exec .tblWrite (operands 0 0x41 0x1 1 State.reset))).map (·.table) =
      some [(0, ⟨true, 0x41#32, 1#6, 1#32⟩)] ∧
    (after (exec .tblWrite (operands 1 0x42 0xFFFFFFFC 2 sRom))).map (·.result) = some .tableRo ∧
    (after (exec .tblWrite (operands 1 0x42 0xFFFFFFFC 2 sIdle))).map (·.table) = some tS := by decide

theorem test_tbl_write_errors :
    statusAfter .tblWrite (operands 300 0x41 0x0 0 sEnc) = some 0x0201#32 ∧
    statusAfter .tblWrite (operands 300 0x41 0x0 0 sIdle) = some 0x0300#32 ∧
    statusAfter .tblWrite (operands 5 0x41 0x0 0 sIdle) = some 0x0400#32 ∧
    statusAfter .tblWrite (operands 2 0x43 0x2 33 sIdle) = some 0x0400#32 ∧
    statusAfter .tblWrite (operands 5 0x41 0x0 2 sIdle) = some 0x0500#32 ∧
    statusAfter .tblWrite (operands 0 0x41 0x0 1 sIdle) = some 0x0600#32 := by decide

theorem test_tbl_read :
    (after (exec .tblRead { sIdle with tblIdx := 1 })).map (fun t => (t.argSym, t.argCode, tblLenWord t)) =
      some (0x42#32, 0#32, 0x80000002#32) ∧
    (after (exec .tblRead { sIdle with tblIdx := 5, tblLenValid := true })).map
      (fun t => (t.argSym, t.argCode, tblLenWord t)) = some (0#32, 0#32, 0#32) := by decide

theorem test_tbl_read_bad_index : statusAfter .tblRead { sIdle with tblIdx := 256 } = some 0x0300#32 := by decide

theorem test_tbl_invalidate :
    (after (exec .tblInvalidate { sIdle with tblIdx := 0 })).map
      (fun t => (statusWord t, validCount t.table, entryAt t.table 0)) = some (0#32, 3, Entry.empty) ∧
    statusAfter .tblInvalidate { sIdle with tblIdx := 9 } = some 0#32 ∧
    statusAfter .tblInvalidate sRom = some 0x0D00#32 ∧ statusAfter .tblInvalidate sEnc = some 0x0201#32 := by decide

/-! ## Encoder commands (95_test_vectors.md 2.4) -/

theorem test_enc_start :
    (after (exec .encStart sIdle)).map (fun t => (statusWord t, t.ebits)) = some (0x0001#32, [true]) ∧
    statusAfter .encStart sEnc = some 0x0201#32 := by decide

theorem test_enc_put :
    (after (exec .encPut { sEnc with argSym := 0x43 })).map (fun t => (statusWord t, t.ebits, t.symCount)) =
      some (0x0001#32, [true, false, true, false], 1#32) ∧
    statusAfter .encPut { sEnc with argSym := 0x5A } = some 0x0700#32 ∧
    statusAfter .encPut sIdle = some 0x0200#32 := by decide

/-- Rows 13 and 15: PBUF_BYTES = 1, the codeword that fills the buffer exactly, and the one that does not fit. -/
theorem test_enc_put_capacity :
    statusAfter .encPut { sEnc with
      config := { Config.default with pbufBytes := 1 }, argSym := 0x41, ebits := List.replicate 7 true } = some 0x0001#32 ∧
    statusAfter .encPut { sEnc with
      config := { Config.default with pbufBytes := 1 }, argSym := 0x41, ebits := List.replicate 8 true } =
      some 0x0800#32 := by decide

theorem test_enc_finish :
    (after (exec .encFinish sTen)).map (fun t => (statusWord t, t.pktLen, packet t, t.ebits.length)) =
      some (0x0008#32, 3#32, [0x0F#8, 0x80#8, 0x93#8], 20) ∧
    (after (exec .encFinish { sTen with byteOrder := .little })).map packet = some [0x93#8, 0x80#8, 0x0F#8] := by decide

theorem test_enc_finish_errors :
    statusAfter .encFinish sEnc = some 0x0900#32 ∧ statusAfter .encFinish sIdle = some 0x0200#32 := by decide

/-! ## Decoder commands (95_test_vectors.md 2.5) -/

theorem test_dec_start :
    (after (exec .decStart sPkt)).map (fun t => (statusWord t, t.dbits, t.decPos)) =
      some (0x0002#32, [false, false, false, false] ++ payload, 5#32) ∧
    (after (exec .decStart { sPkt with byteOrder := .little })).map (·.decPos) = some 1#32 ∧
    (after (exec .decStart { sPkt with pbuf := [(0, 0x01#8)], pktLen := 1 })).map (·.decPos) = some 8#32 := by decide

theorem test_dec_start_errors :
    statusAfter .decStart { sPkt with pbuf := [(0, 0x00#8)], pktLen := 1, done := true } = some 0x0B00#32 ∧
    statusAfter .decStart { sPkt with pktLen := 0 } = some 0x0B00#32 ∧ statusAfter .decStart sDec = some 0x0202#32 := by
  decide

theorem test_dec_next :
    (after (exec .decNext sDec)).map (fun t => (statusWord t, t.decSym, t.decPos)) = some (0x0006#32, 0x41#32, 6#32) ∧
    (after (exec .decNext { sDec with decPos := 15 })).map (fun t => (t.decSym, t.decPos)) = some (0x43#32, 18#32) ∧
    statusAfter .decNext sEnd = some 0x0008#32 := by decide

/-- Rows 3, 12 and 17. -/
theorem test_dec_next_errors :
    (after (exec .decNext { sDec with dbits := bits 2 8, decPos := 7 })).map (fun t => (statusWord t, t.decPos)) =
      some (0x0C00#32, 7#32) ∧
    statusAfter .decNext { sDec with table := [] } = some 0x0C00#32 ∧ statusAfter .decNext sPkt = some 0x0200#32 := by
  decide

/-! ## The host reference (95_test_vectors.md 2.6) -/

theorem test_codes_scenario :
    hostCodes (splitSymbols 1 [0x41, 0x41, 0x41, 0x41, 0x42, 0x42, 0x42, 0x43, 0x43, 0x44]) =
      [([0x41], [true]), ([0x42], [false, false]), ([0x43], [false, true, false]), ([0x44], [false, true, true])] := by
  decide

theorem test_codes_aabbc :
    hostCodes (splitSymbols 1 [0x41, 0x41, 0x42, 0x42, 0x43]) =
      [([0x41], [true]), ([0x42], [false, false]), ([0x43], [false, true])] := by decide

theorem test_codes_one_symbol : hostCodes (splitSymbols 1 [0x41, 0x41, 0x41]) = [([0x41], [false])] := by decide

theorem test_codes_padded :
    padLen 3 7 = 2 ∧
    hostCodes (splitSymbols 3 (padInput 3 0 [0x41, 0x42, 0x43, 0x44, 0x45, 0x46, 0x47])) =
      [([0x41, 0x42, 0x43], [true]), ([0x44, 0x45, 0x46], [false, false]), ([0x47, 0, 0], [false, true])] := by decide

/-- 30_encoding.md R104. -/
theorem test_symval : symval [0x41, 0x42, 0x43] = 0x00434241#32 ∧ symBytes 3 0x00434241#32 = [0x41, 0x42, 0x43] := by
  decide

/-- The container of AABBC: codes of 95_test_vectors.md 2.6, packet of "1" and "1", "1", "00", "00", "01" by hand. -/
def aabbc : Container :=
  { byteOrder := .big, body := [0x01, 0xC1],
    header := [.padding 0, .pair [0x41] [true], .pair [0x42] [false, false], .pair [0x43] [false, true], .terminator] }

/-- The error of a host operation, if it fails. -/
def hostError {α : Type} : Except HostError α → Option HostError
  | .ok _ => none
  | .error e => some e

/-- 49_host_reference.md R248, R251 and the decode back, R252. -/
theorem test_host_encode :
    (match hostEncode 0 .big [0x41, 0x41, 0x42, 0x42, 0x43] State.reset with
     | .ok (c, _) => decide (c = aabbc)
     | .error _ => false) = true := by decide +kernel

theorem test_host_decode :
    (match hostDecode aabbc State.reset with
     | .ok (out, _) => decide (out = [0x41, 0x41, 0x42, 0x42, 0x43])
     | .error _ => false) = true := by decide +kernel

/-- R252, R253: a body longer than PBUF fails at PKT_LEN, whatever PKT_LEN was (60_exceptions.md R270, RANGE). -/
theorem test_host_decode_body_too_long :
    hostError (hostDecode aabbc { State.reset with
      config := { Config.default with pbufBytes := 1 }, pbuf := [(0, 0x01#8)], pktLen := 1 }) = some (.block .range) := by
  decide +kernel

/-- R248, R253: a ROM build ends with TABLE_RO (log entry 17). -/
theorem test_host_rom :
    hostError (hostDecode aabbc sRom) = some (.block .tableRo) ∧
    hostError (hostEncode 0 .big [0x41] sRom) = some (.block .tableRo) := by decide +kernel

/-- R243, R250: no input, no terminator, a field after the terminator, padding that does not fit (log entry 16), no padding. -/
theorem test_host_header :
    hostError (hostEncode 0 .big [] State.reset) = some .emptyInput ∧
    hostError (hostDecode { aabbc with header := [.padding 0, .pair [0x41] [true]] } State.reset) = some .invalidHeader ∧
    hostError (hostDecode { aabbc with header := [.padding 0, .terminator, .terminator] } State.reset) =
      some .invalidHeader ∧
    hostError (hostDecode { aabbc with header := [.padding 1, .terminator] } State.reset) = some .invalidHeader ∧
    hostError (hostDecode { aabbc with header := [.pair [0x41] [true], .terminator] } State.reset) =
      some .invalidHeader := by decide

/-- R250: a body without a sentinel, and one with a bit that no codeword covers ("1" and "0" after it). -/
theorem test_host_corrupt :
    hostError (hostDecode { aabbc with body := [0x00] } State.reset) = some (.corruptContainer .noSentinel) ∧
    hostError (hostDecode { aabbc with body := [0x02] } State.reset) = some (.corruptContainer .decode) := by decide +kernel

/-! ## Witnesses: states and operands that meet the hypotheses of each statement, clause by clause -/

/-- A state with `evs` as the host's next accesses. -/
def host (s : State) (evs : List HostEvent) : State := { s with hostIn := evs }

theorem witness_inv_idle : Inv sIdle := by constructor <;> decide
theorem witness_inv_encoding : Inv sEnc := by constructor <;> decide
theorem witness_inv_encoded : Inv sTen := by constructor <;> decide
theorem witness_inv_packet : Inv sPkt := by constructor <;> decide
theorem witness_inv_decoding : Inv sDec := by constructor <;> decide
theorem witness_inv_end : Inv sEnd := by constructor <;> decide
theorem witness_inv_rom : Inv sRom := by constructor <;> decide
theorem witness_inv_no_table : Inv { sEnc with table := [], argSym := 0x41 } ∧ Inv { sDec with table := [] } := by
  constructor <;> constructor <;> decide

theorem witness_DecodeIsInverseOfEncode : decode 0x21#32 = .ok .decNext := by decide

theorem witness_IllegalWordSetsOnlyResult :
    (host sEnc [.write 0x18#32 0x110#32]).hostIn = .write 0x18#32 0x110#32 :: [] ∧ (0x18#32).toNat / 4 = 0x18 / 4 ∧
    (0x110#32).toNat / 256 ≠ 0 ∧ (0x1B#32).toNat / 4 = 0x18 / 4 ∧ (0x05#32).toNat % 256 ∉
      [0x00, 0x01, 0x02, 0x03, 0x04, 0x10, 0x11, 0x12, 0x20, 0x21, 0xF0, 0xFF] := by decide

theorem witness_CmdWriteRunsTheCommand :
    (host sEnc [.write 0x1B#32 0x11#32]).hostIn = .write 0x1B#32 0x11#32 :: [] ∧ (0x1B#32).toNat / 4 = 0x18 / 4 ∧
    decode 0x11#32 = .ok .encPut ∧ (host sEnc [.read 0x18#32]).hostIn = .read 0x18#32 :: [] := by decide

theorem witness_NoAccessNoChange : State.reset.hostIn = [] := rfl

theorem witness_TblClearRule :
    sEnc.mode ≠ .idle ∧ (sRom.mode = .idle ∧ sRom.config.tableRom = true) ∧
    (sIdle.mode = .idle ∧ sIdle.config.tableRom = false) := by decide

/-- The checks that need no search of the table, at the ends of their ranges. -/
theorem witness_TblWriteRule_operands :
    (SMap.wf sEnc.table ∧ sEnc.mode ≠ .idle) ∧ (SMap.wf sRom.table ∧ sRom.mode = .idle ∧ sRom.config.tableRom = true) ∧
    (SMap.wf sIdle.table ∧ sIdle.mode = .idle ∧ sIdle.config.tableRom = false) ∧
    sIdle.config.tableDepth ≤ (operands 256 0 0 0 sIdle).tblIdx.toNat ∧
    (operands 255 0 0 0 sIdle).tblIdx.toNat < sIdle.config.tableDepth ∧ (operands 255 0 0 0 sIdle).tblLen.toNat = 0 ∧
    sIdle.config.maxLen < (operands 255 0 0 33 sIdle).tblLen.toNat ∧
    (operands 255 0 0 32 sIdle).tblLen.toNat ≤ sIdle.config.maxLen := by decide

theorem witness_TblWriteRule_duplicate :
    ∃ j, j ≠ (operands 5 0x41 0 2 sIdle).tblIdx.toNat ∧ (entryAt sIdle.table j).valid = true ∧
      (entryAt sIdle.table j).sym = (operands 5 0x41 0 2 sIdle).argSym := ⟨0, by decide⟩

theorem witness_TblWriteRule_conflict :
    (¬∃ j, j ≠ (operands 5 0x45 0 2 sIdle).tblIdx.toNat ∧ (entryAt sIdle.table j).valid = true ∧
      (entryAt sIdle.table j).sym = (operands 5 0x45 0 2 sIdle).argSym) ∧
    ∃ j, j ≠ (operands 5 0x45 0 2 sIdle).tblIdx.toNat ∧ (entryAt sIdle.table j).valid = true ∧
      inPrefix 2 0 (entryAt sIdle.table j).len.toNat (entryAt sIdle.table j).code.toNat = true := by
  refine ⟨?_, 1, by decide⟩
  rintro ⟨j, -, hv, hs⟩
  have := mem_of_valid (t := sIdle.table) (by decide) hv
  generalize entryAt sIdle.table j = e at this hs
  simp only [sIdle, tS, List.mem_cons, Prod.mk.injEq, List.not_mem_nil, or_false] at this
  rcases this with ⟨-, rfl⟩ | ⟨-, rfl⟩ | ⟨-, rfl⟩ | ⟨-, rfl⟩ <;> exact absurd hs (by decide)

theorem witness_TblWriteRule_written :
    (¬∃ j, j ≠ (operands 0 0x41 1 1 State.reset).tblIdx.toNat ∧ (entryAt State.reset.table j).valid = true ∧
      (entryAt State.reset.table j).sym = (operands 0 0x41 1 1 State.reset).argSym) ∧
    ¬∃ j, j ≠ (operands 0 0x41 1 1 State.reset).tblIdx.toNat ∧ (entryAt State.reset.table j).valid = true ∧
      inPrefix 1 1 (entryAt State.reset.table j).len.toNat (entryAt State.reset.table j).code.toNat = true :=
  ⟨fun ⟨_, _, hv, _⟩ => Bool.noConfusion hv, fun ⟨_, _, hv, _⟩ => Bool.noConfusion hv⟩

theorem witness_TblReadRule :
    sIdle.config.tableDepth ≤ { sIdle with tblIdx := 256#16 }.tblIdx.toNat ∧
    { sIdle with tblIdx := 255#16 }.tblIdx.toNat < sIdle.config.tableDepth := by decide

theorem witness_TblInvalidateRule :
    sEnc.mode ≠ .idle ∧ (sRom.mode = .idle ∧ sRom.config.tableRom = true) ∧
    (sIdle.mode = .idle ∧ sIdle.config.tableRom = false ∧
      sIdle.config.tableDepth ≤ { sIdle with tblIdx := 256#16 }.tblIdx.toNat) ∧
    { sIdle with tblIdx := 255#16 }.tblIdx.toNat < sIdle.config.tableDepth := by decide

theorem witness_RomTableNeverChanges :
    (sRom.config.tableRom = true ∧ sRom.table = sRom.config.tableInit ∧ sRom.mode = .idle ∧
      sRom.tblIdx.toNat < sRom.config.tableDepth) ∧
    (∃ t, step (host sRom [cmd .tblClear]) = .next t) ∧ ∃ t, exec .softReset sRom = .next t :=
  ⟨by decide, ⟨_, rfl⟩, ⟨_, rfl⟩⟩

theorem witness_TableFixedDuringOperation :
    sDec.mode ≠ .idle ∧ ∃ t, step (host sDec [cmd .decNext]) = .next t ∧ t.mode ≠ .idle :=
  ⟨by decide, _, rfl, by decide⟩

theorem witness_TableInvariantAtEveryMoment : Inv sIdle ∧ ∃ t, step (host sIdle [cmd .tblInvalidate]) = .next t :=
  ⟨witness_inv_idle, _, rfl⟩

theorem witness_LookupsFindTheOneEntry :
    Table.wf Config.default tS ∧ symLookup tS 0x44#32 = some 3 ∧ codeLookup tS 3 2 = some 2 := by decide

theorem witness_PrefixRelationIsPrefixOfBitStrings : 1 < 2 ^ 1 ∧ 3 < 2 ^ 2 := by decide

theorem witness_BitStringsAreBinaryNumbers : 0 < 3 ∧ 2 < 3 := by decide

theorem witness_PackedBitOrder :
    payload ≠ [] ∧ 0 < payload.length ∧ 19 < payload.length ∧ payload.length ≤ 20 ∧ 23 < 8 * ((payload.length + 7) / 8) := by
  decide

theorem witness_UnpackInvertsPack : 1 ≤ [true].length := by decide

theorem witness_FirstOneIsTheFirstOneBit :
    firstOne [false, true] = some 1 ∧ firstOne [false, false] = none := by decide

theorem witness_EncStartRule : sDec.mode ≠ .idle ∧ sIdle.mode = .idle := by decide

/-- The buffer one codeword short of full, and full. -/
theorem witness_EncPutRule :
    (Table.wf sIdle.config sIdle.table ∧ sIdle.mode ≠ .encoding) ∧
    (Table.wf sEnc.config sEnc.table ∧ sEnc.mode = .encoding ∧ (entryAt sEnc.table 0).valid = true ∧
      (entryAt sEnc.table 0).sym = { sEnc with argSym := 0x41#32 }.argSym) ∧
    7 + (entryAt sEnc.table 0).len.toNat ≤ 8 * 1 ∧ 8 * 1 < 8 + (entryAt sEnc.table 0).len.toNat := by decide

theorem witness_EncPutRule_unknown :
    Table.wf Config.default [] ∧ ∀ i, ¬((entryAt [] i).valid = true ∧ (entryAt [] i).sym = 0x41#32) :=
  ⟨by decide, fun _ h => Bool.noConfusion h.1⟩

theorem witness_EncFinishRule :
    (Inv sIdle ∧ sIdle.mode ≠ .encoding) ∧ (Inv sEnc ∧ sEnc.mode = .encoding ∧ sEnc.symCount = 0#32) ∧
    (Inv sTen ∧ sTen.mode = .encoding ∧ sTen.symCount ≠ 0#32 ∧ 2 < (sTen.ebits.length + 7) / 8 ∧
      (sTen.ebits.length + 7) / 8 ≤ 3) :=
  ⟨⟨witness_inv_idle, by decide⟩, ⟨witness_inv_encoding, by decide⟩, ⟨witness_inv_encoded, by decide⟩⟩

theorem witness_known (x : Word) (hx : x ∈ [0x43#32, 0x41#32]) :
    ∃ i, (entryAt sIdle.table i).valid = true ∧ (entryAt sIdle.table i).sym = x := by
  rcases List.mem_cons.1 hx with rfl | hx
  · exact ⟨2, by decide⟩
  · rcases List.mem_singleton.1 hx with rfl
    exact ⟨0, by decide⟩

theorem witness_EncodeGivesThePackedPayload :
    Inv (host sIdle (encodeEvents [0x43#32, 0x41#32] ++ [])) ∧
    (∀ x ∈ [0x43#32, 0x41#32], ∃ i, (entryAt sIdle.table i).valid = true ∧ (entryAt sIdle.table i).sym = x) ∧
    sIdle.mode = .idle ∧ [0x43#32, 0x41#32] ≠ [] ∧
    (encodedPayload sIdle.table [0x43#32, 0x41#32]).length ≤ 8 * sIdle.config.pbufBytes :=
  ⟨by constructor <;> decide, witness_known, by decide⟩

theorem witness_DecStartRule :
    (Inv sDec ∧ sDec.mode ≠ .idle) ∧
    (Inv sIdle ∧ sIdle.mode = .idle ∧
      true ∉ unpack ((List.range sIdle.pktLen.toNat).map (readByte sIdle)) sIdle.byteOrder) ∧
    (Inv sPkt ∧ sPkt.mode = .idle ∧
      (unpack ((List.range sPkt.pktLen.toNat).map (readByte sPkt)) sPkt.byteOrder)[4]? = some true ∧
      ∀ j, j < 4 → (unpack ((List.range sPkt.pktLen.toNat).map (readByte sPkt)) sPkt.byteOrder)[j]? = some false) :=
  ⟨⟨witness_inv_decoding, by decide⟩, ⟨witness_inv_idle, by decide⟩, ⟨witness_inv_packet, by decide⟩⟩

theorem witness_DecNextRule :
    (Inv sIdle ∧ sIdle.mode ≠ .decoding) ∧
    (Inv sEnd ∧ sEnd.mode = .decoding ∧ sEnd.decPos.toNat = sEnd.dbits.length) ∧
    (Inv { sDec with table := [] } ∧ sDec.mode = .decoding ∧ sDec.decPos.toNat ≠ sDec.dbits.length ∧
      ∀ i k, ¬((entryAt [] i).valid = true ∧ (entryAt [] i).len.toNat = k)) ∧
    (Inv sDec ∧ (entryAt sDec.table 0).valid = true ∧ (entryAt sDec.table 0).len.toNat = 1 ∧
      sDec.decPos.toNat + 1 ≤ sDec.dbits.length ∧
      (entryAt sDec.table 0).code.toNat = bitsToNat ((sDec.dbits.drop sDec.decPos.toNat).take 1)) :=
  ⟨⟨witness_inv_idle, by decide⟩, ⟨witness_inv_end, by decide⟩,
   ⟨witness_inv_no_table.2, by decide, by decide, fun _ _ h => Bool.noConfusion h.1⟩, ⟨witness_inv_decoding, by decide⟩⟩

theorem witness_GreedyMatchIsUnambiguous :
    Table.wf Config.default tS ∧ 0 + 3 ≤ [false, true, false].length ∧
    codeLookup tS 3 (bitsToNat (slice [false, true, false] 0 (0 + 3))) = some 2 := by decide

/-- More fuel than MAX_LEN over T_S, where a codeword of 3 bits is found, and a table with one codeword, which a run of
zeros never matches. -/
theorem witness_EarlyFailureLosesNoMatch :
    (Table.wf Config.default tS ∧ Config.default.maxLen ≤ 40 ∧
      greedyMatch tS [false, true, true] 0 Config.default.maxLen 1 = some (3, 3)) ∧
    Table.wf Config.default [(0, ⟨true, 0x41#32, 1#6, 1#32⟩)] ∧
    ∀ k, 1 ≤ k → k ≤ Config.default.maxLen →
      codeLookup [(0, ⟨true, 0x41#32, 1#6, 1#32⟩)] k (bitsToNat (slice (List.replicate 40 false) 0 (0 + k))) = none := by
  refine ⟨by decide, by decide, fun k h1 h2 => ?_⟩
  have h2 : k ≤ 32 := h2
  interval_cases k <;> decide

theorem witness_EncodeThenDecodeRoundTrip :
    Inv (host sIdle (encodeEvents [0x43#32, 0x41#32] ++ (decodeEvents 2 ++ []))) ∧
    (∀ x ∈ [0x43#32, 0x41#32], ∃ i, (entryAt sIdle.table i).valid = true ∧ (entryAt sIdle.table i).sym = x) ∧
    sIdle.mode = .idle ∧ (encodedPayload sIdle.table [0x43#32, 0x41#32]).length ≤ 8 * sIdle.config.pbufBytes :=
  ⟨by constructor <;> decide, witness_known, by decide⟩

theorem witness_DecodeLoopEnds :
    Inv (host sDec (List.replicate 20 (cmd .decNext))) ∧ sDec.mode = .decoding ∧
    sDec.dbits.length - sDec.decPos.toNat + 1 = 20 := ⟨by constructor <;> decide, by decide⟩

theorem witness_ReadsHaveNoSideEffect : (host sDec [rd .status]).hostIn = .read 0x14#32 :: [] := by decide

theorem witness_BuildRegistersAreConstant : Config.wf sRom.config ∧ ∃ t, step (host sRom [.powerOn]) = .next t :=
  ⟨by decide, _, rfl⟩

theorem witness_StatusFields : (host sDec [wr .status 0#32]).hostIn = .write 0x14#32 0#32 :: [] := by decide

theorem witness_WorkingRegistersRead : Inv sEnd := witness_inv_end

theorem witness_AddressLowBitsIgnored : (0x10003#32).toNat / 4 = (0x10000#32).toNat / 4 := by decide

/-- The ends of both holes in the address map. -/
theorem witness_ReservedAndUnmappedAddresses :
    (0x44 ≤ (0x44#32).toNat ∧ (0xFFFF#32).toNat < 0x10000) ∧
    0x10000 + 4 * sIdle.config.pbufBytes ≤ (0x14000#32).toNat ∧
    0x10000 + 4 * sIdle.config.pbufBytes ≤ (0xFFFFFFFF#32).toNat ∧
    (host sIdle [.read 0x44#32]).hostIn = .read 0x44#32 :: [] ∧
    (host sIdle [.write 0x14000#32 1#32]).hostIn = .write 0x14000#32 1#32 :: [] := by decide

/-- The first and the last byte of PBUF, in both kinds of mode. -/
theorem witness_PbufWindow :
    (0 < sIdle.config.pbufBytes ∧ (0x10000#32).toNat / 4 = 0x4000 + 0) ∧
    (4095 < sIdle.config.pbufBytes ∧ (0x13FFF#32).toNat / 4 = 0x4000 + 4095) ∧
    ((host sDec [rdPbuf 0]).hostIn = .read 0x10000#32 :: []) ∧
    ((host sIdle [wrPbuf 0 1#32]).hostIn = .write 0x10000#32 1#32 :: [] ∧ sIdle.mode = .idle) ∧
    ((host sEnc [wrPbuf 0 1#32]).hostIn = .write 0x10000#32 1#32 :: [] ∧ sEnc.mode ≠ .idle) ∧
    ∃ t, step (host sEnc [cmd .nop]) = .next t ∧ t.mode ≠ .idle :=
  ⟨by decide, by decide, by decide, by decide, by decide, _, rfl, by decide⟩

theorem witness_RejectedRegisterWrites :
    ((host sEnc [wr .ctrl 1#32]).hostIn = .write 0x10#32 1#32 :: [] ∧ sEnc.mode ≠ .idle ∧ sIdle.mode = .idle) ∧
    (host sIdle [wr .pktLen 4097#32]).hostIn = .write 0x2C#32 4097#32 :: [] ∧
    sIdle.config.pbufBytes < (4097#32).toNat ∧ (4096#32).toNat ≤ sIdle.config.pbufBytes ∧
    (host sEnc [wr .tblLen 1#32]).hostIn = .write 0x28#32 1#32 :: [] := by decide

theorem witness_OperandRegisterWrites :
    (host sEnc [wr .argSym 1#32]).hostIn = .write 0x1C#32 1#32 :: [] ∧
    (host sEnc [wr .argCode 1#32]).hostIn = .write 0x20#32 1#32 :: [] ∧
    (host sEnc [wr .tblIdx 1#32]).hostIn = .write 0x24#32 1#32 :: [] ∧
    (host sEnc [wr .tblLen 1#32]).hostIn = .write 0x28#32 1#32 :: [] := by decide

theorem witness_ReadOnlyWritesIgnored :
    (0x40#32).toNat ∈ [0x00, 0x04, 0x08, 0x0C, 0x14, 0x30, 0x34, 0x38, 0x3C, 0x40] ∧
    (host sEnc [wr .tblCount 1#32]).hostIn = .write 0x40#32 1#32 :: [] := by decide

theorem witness_ErrorAction :
    (∃ t, exec .encFinish sEnc = .next t ∧ t.result ≠ .ok) ∧ ∃ t, exec .decStart sIdle = .next t ∧ t.result ≠ .ok :=
  ⟨⟨_, rfl, by decide⟩, _, rfl, by decide⟩

theorem witness_ResultsOfEachCommand :
    (∃ t, exec .decNext sDec = .next t) ∧ (∀ i, 0x110#32 ≠ encode i) ∧ ∃ t, writeCmd 0x110#32 sDec = .next t :=
  ⟨⟨_, rfl⟩, fun i => by cases i <;> decide, _, rfl⟩

/-- An accepted write, a rejected one and a PKT_LEN out of range: none of them is a power-on or a CMD write. -/
theorem witness_ResultPersists :
    (∃ t, step (host sIdle [wr .argSym 1#32]) = .next t) ∧ (∃ t, step (host sEnc [wr .ctrl 1#32]) = .next t) ∧
    (∃ t, step (host sIdle [wr .pktLen 4097#32]) = .next t) ∧ wr .argSym 1#32 ≠ .powerOn ∧
    ∀ a v, wr .argSym 1#32 = .write a v → a.toNat / 4 ≠ 0x18 / 4 :=
  ⟨⟨_, rfl⟩, ⟨_, rfl⟩, ⟨_, rfl⟩, by decide, fun a v h => by
    obtain ⟨rfl, -⟩ := HostEvent.write.inj h
    decide⟩

theorem witness_FlagTable :
    (Inv sTen ∧ ∃ t, exec .encFinish sTen = .next t) ∧ (∃ t, step (host sEnd [.powerOn]) = .next t) ∧
    (∃ t, step (host sEnd [rd .status]) = .next t) ∧ rd .status ≠ .powerOn ∧ ∀ a w, rd .status ≠ .write a w :=
  ⟨⟨witness_inv_encoded, _, rfl⟩, ⟨_, rfl⟩, ⟨_, rfl⟩, by decide, fun _ _ h => HostEvent.noConfusion h⟩

/-- Both modes entered, and both left. -/
theorem witness_ModeTable :
    (sIdle.mode ≠ .encoding ∧ ∃ t, step (host sIdle [cmd .encStart]) = .next t ∧ t.mode = .encoding) ∧
    (sPkt.mode ≠ .decoding ∧ ∃ t, step (host sPkt [cmd .decStart]) = .next t ∧ t.mode = .decoding) ∧
    (sTen.mode = .encoding ∧ ∃ t, step (host sTen [cmd .encFinish]) = .next t ∧ t.mode ≠ .encoding) ∧
    (sEnd.mode = .decoding ∧ ∃ t, step (host sEnd [cmd .decNext]) = .next t ∧ t.mode ≠ .decoding) :=
  ⟨⟨by decide, _, rfl, by decide⟩, ⟨by decide, _, rfl, by decide⟩, ⟨by decide, _, rfl, by decide⟩,
   ⟨by decide, _, rfl, by decide⟩⟩

theorem witness_CommandFrames :
    (∃ t, exec .tblWrite (operands 5 0x45 0 2 sIdle) = .next t) ∧ (∃ t, exec .encFinish sTen = .next t) ∧
    3 ≤ (sTen.ebits.length + 7) / 8 := ⟨⟨_, rfl⟩, ⟨_, rfl⟩, by decide⟩

theorem witness_StepKeepsInvariant : Inv sDec ∧ ∃ t, step (host sDec [cmd .decNext]) = .next t :=
  ⟨witness_inv_decoding, _, rfl⟩

/-- A ROM build, and a state in the middle of a decode. -/
theorem witness_ResetMeetsInvariant :
    Config.wf sRom.config ∧ Config.wf sEnd.config ∧ Memory.wf sEnd.pbuf ∧
    (∀ p ∈ sEnd.pbuf, p.1 < sEnd.config.pbufBytes) ∧ ∃ t, exec .softReset sEnd = .next t :=
  ⟨by decide, by decide, by decide, by decide, _, rfl⟩

theorem witness_NoCounterWraps : Inv sEnc ∧ ∃ t, step (host sEnc [cmd .encPut]) = .next t :=
  ⟨witness_inv_encoding, _, rfl⟩

theorem witness_ResetValues :
    (0x40#32).toNat ∈ [0x10, 0x14, 0x18, 0x1C, 0x20, 0x24, 0x28, 0x2C, 0x30, 0x34, 0x38, 0x3C, 0x40] := by decide

theorem witness_PowerOnResetRule : (host sEnd [.powerOn]).hostIn = .powerOn :: [] := rfl

/-- A DEC_START over written bytes only. -/
theorem witness_PowerOnDrawIsHidden :
    (host sPkt [cmd .decStart]).hostIn = cmd .decStart :: [] ∧ cmd .decStart ≠ .powerOn ∧
    (∀ a, cmd .decStart ≠ .read a) ∧ ∀ i, i < sPkt.pktLen.toNat → SMap.get? sPkt.pbuf i ≠ none :=
  ⟨rfl, by decide, fun _ h => HostEvent.noConfusion h, by decide⟩

theorem witness_PaddingFillsWholeSymbols :
    1 ≤ 3 ∧ (0#8 ∈ (padInput 3 0 [0x41#8]).drop 1) ∧ ([0x41#8, 0#8, 0#8] ∈ splitSymbols 3 (padInput 3 0 [0x41#8])) ∧
    [0x41#8, 0x42#8, 0x43#8, 0x44#8].length ≤ 4 := by decide

/-- Runs that succeed, an access that fails, and an encode and a decode that succeed. -/
theorem witness_HostReportsEveryError :
    ([cmd .nop] ≠ [] ∧ ∃ t, issue ([cmd .nop] ++ [cmd .encStart]) sIdle = .ok t) ∧
    (∃ u v, issue [cmd .nop] sIdle = .ok u ∧ deliver (cmd .encPut) u = .next v ∧ v.result ≠ .ok) ∧
    (∃ out t, hostDecode aabbc State.reset = .ok (out, t)) ∧
    (∃ c t, hostEncode 0 .big [0x41, 0x41, 0x42, 0x42, 0x43] State.reset = .ok (c, t)) ∧
    1 ≤ State.reset.config.order := by
  refine ⟨⟨by decide, _, rfl⟩, ⟨_, _, rfl, rfl, by decide⟩, ?_, ?_, by decide⟩
  · have := test_host_decode
    split at this
    next h => exact ⟨_, _, h⟩
    · exact absurd this (by decide)
  · have := test_host_encode
    split at this
    next h => exact ⟨_, _, h⟩
    · exact absurd this (by decide)

/-- A container that parses, one without a terminator, and one whose body has no sentinel. -/
theorem witness_ContainerReadInvertsWrite :
    readContainer 1 aabbc = .ok
      { padding := 0, codes := [([0x41], [true]), ([0x42], [false, false]), ([0x43], [false, true])], byteOrder := .big,
        body := [0x01, 0xC1] } ∧
    HeaderField.terminator ∉ [HeaderField.padding 0] ∧ Config.wf State.reset.config ∧
    (∃ k t, readContainer State.reset.config.order { aabbc with header := [.padding 0, .terminator], body := [0#8] } = .ok k ∧
      loadTable k.codes State.reset = .ok t) ∧
    [0#8].length ≤ State.reset.config.pbufBytes ∧ true ∉ unpack [0#8] aabbc.byteOrder :=
  ⟨by rfl, by decide, by decide, ⟨_, _, rfl, rfl⟩, by decide, by decide⟩

end Sys2Proof.Machine.Tests
end

section
/-! SUPPORT. `bits` and `int` (00_scope.md R10): where each bit of a number stands, and that the two are inverse. -/

namespace Sys2Proof.Machine

/-- The bits of `bits(v, n)` are the binary digits of `v`, most significant first (00_scope.md R10). -/
theorem getElem?_bits (v : Nat) {n i : Nat} (hi : i < n) : (bits v n)[i]? = some (v.testBit (n - 1 - i)) := by
  induction n generalizing i with
  | zero => omega
  | succ n ih =>
    cases i with
    | zero => simp [bits]
    | succ i =>
      rw [bits, List.getElem?_cons_succ, ih (by omega), show n + 1 - 1 - (i + 1) = n - 1 - i by omega]

/-- Only the low `n` digits of a number enter its `n` bits. -/
theorem bits_mod_two_pow (v : Nat) {n m : Nat} (h : n ≤ m) : bits (v % 2 ^ m) n = bits v n := by
  induction n with
  | zero => rfl
  | succ n ih =>
    have hn : n < m := h
    rw [bits, bits, ih hn.le, Nat.testBit_mod_two_pow, decide_eq_true hn, Bool.true_and]

/-- `int(bits(v, n))` is `v` modulo 2^n (00_scope.md R10). -/
theorem bitsToNat_bits (v n : Nat) : bitsToNat (bits v n) = v % 2 ^ n := by
  induction n with
  | zero => simp [bits, Nat.mod_one]
  | succ n ih =>
    rw [bits, bitsToNat_cons, ih, length_bits, Nat.toNat_testBit, Nat.mod_pow_succ, Nat.mul_comm, Nat.add_comm]

/-- The first bit of a bit-string is the top digit of its value. -/
theorem testBit_bitsToNat_cons (b : Bool) (s : Bits) : (bitsToNat (b :: s)).testBit s.length = b := by
  rw [bitsToNat_cons, Nat.mul_comm, Nat.testBit_two_pow_mul_add _ (bitsToNat_lt s), if_neg (lt_irrefl _), Nat.sub_self]
  cases b <;> rfl

/-- The bits after the first are the remaining digits of the value. -/
theorem bitsToNat_cons_mod (b : Bool) (s : Bits) : bitsToNat (b :: s) % 2 ^ s.length = bitsToNat s := by
  rw [bitsToNat_cons, Nat.mul_add_mod_self_right, Nat.mod_eq_of_lt (bitsToNat_lt s)]

/-- `bits(int(s), |s|)` is `s` (00_scope.md R10). -/
theorem bits_bitsToNat (s : Bits) : bits (bitsToNat s) s.length = s := by
  induction s with
  | nil => rfl
  | cons b s ih =>
    have htail : bits (bitsToNat (b :: s)) s.length = s := by
      rw [← bits_mod_two_pow _ le_rfl, bitsToNat_cons_mod, ih]
    rw [List.length_cons, bits, testBit_bitsToNat_cons, htail]

/-- Settles O20: each bit by induction on the length, and the two inverses from the value of a bit-string in front of
which a bit is put. -/
theorem bitStringsAreBinaryNumbers : Obligations.BitStringsAreBinaryNumbers :=
  ⟨fun v n => ⟨length_bits v n, fun _ hi => getElem?_bits v hi⟩, bitsToNat_bits, bits_bitsToNat, bitsToNat_nil⟩

end Sys2Proof.Machine
end

section
/-! SUPPORT. The resets (70_reset_and_hazards.md R301, R303) are all `resetRegisters` over some PBUF, which
establishes the machine's invariant. -/

namespace Sys2Proof.Machine

/-- The table at reset meets T1 to T5 in every legal build (70_reset_and_hazards.md R303). -/
theorem wf_resetTable {c : Config} (h : Config.wf c) : Table.wf c (resetTable c) := by
  obtain ⟨-, -, -, -, himage⟩ := h
  unfold resetTable
  split_ifs
  · exact himage
  · exact wf_nil c

/-- A ROM table is its image from reset on (40_table.md R137). -/
theorem resetTable_of_rom {c : Config} (h : c.tableRom = true) : resetTable c = c.tableInit := if_pos h

/-- Resetting the registers of a legal build gives the invariant, if PBUF, which it keeps, is as the invariant asks. -/
theorem inv_resetRegisters {s : State} (hc : Config.wf s.config)
    (hp : Memory.wf s.pbuf ∧ ∀ p ∈ s.pbuf, p.1 < s.config.pbufBytes) : Inv (resetRegisters s) where
  config := hc
  table := wf_resetTable hc
  rom := resetTable_of_rom
  pbuf := hp
  argSym := Nat.two_pow_pos _
  decSym := Nat.two_pow_pos _
  pktLen := Nat.zero_le _
  ebits := Nat.zero_le _
  dbits := ⟨Nat.zero_le _, dvd_zero 8⟩
  decPos := le_rfl
  symCount := Nat.zero_le _
  encoding := by simp
  decoding := by simp
  symValid := by simp

/-- The default build is legal (00_scope.md R7). -/
theorem wf_default : Config.wf Config.default := by decide

/-- An empty PBUF list is as the invariant asks. -/
theorem pbuf_nil_wf (n : Nat) : Memory.wf [] ∧ ∀ p ∈ ([] : List Host.Cell), p.1 < n := by simp

/-- A legal build right after reset meets the invariant (10_state.md R59). -/
theorem inv_reset_of_config {c : Config} (h : Config.wf c) :
    Inv { State.reset with config := c, table := resetTable c } :=
  inv_resetRegisters (s := { State.reset with config := c }) h (pbuf_nil_wf _)

/-- Power-on establishes the invariant, whatever the registers held (70_reset_and_hazards.md R301). -/
theorem inv_powerOnReset {s : State} (h : Config.wf s.config) : Inv (powerOnReset s) :=
  inv_resetRegisters (s := { s with pbuf := [], powerOns := s.powerOns + 1 }) h (pbuf_nil_wf _)

/-- SOFT_RESET resets the registers and does nothing else (43_control.md R222). -/
theorem exec_softReset_eq_next {s t : State} : exec .softReset s = .next t ↔ t = resetRegisters s :=
  finishOk_eq_next

/-- Settles O51: each reset is `resetRegisters` of a legal build over a well-formed PBUF list. -/
theorem resetMeetsInvariant : Obligations.ResetMeetsInvariant := by
  refine ⟨inv_reset_of_config wf_default, fun _ => inv_reset_of_config, fun _ => inv_powerOnReset, ?_⟩
  intro s t hc hw hb h
  obtain rfl := exec_softReset_eq_next.1 h
  exact inv_resetRegisters hc ⟨hw, hb⟩

end Sys2Proof.Machine
end

section
/-! SUPPORT. The step without a host access (00_scope.md R6). -/

namespace Sys2Proof.Machine

/-- Settles O7: the step's equation on an empty list of accesses. -/
theorem noAccessNoChange : Obligations.NoAccessNoChange :=
  fun _ => step_nil

end Sys2Proof.Machine
end

section
/-! SUPPORT. Every way a command can end, as one relation over the commands' inversion lemmas: what a step keeps is
then a case analysis of this relation. -/

namespace Sys2Proof.Machine

/-- The mode a command runs in, where it runs in one mode only (10_state.md R36). -/
def requiredMode : Instr → Option Mode
  | .tblClear | .tblWrite | .tblInvalidate | .encStart | .decStart => some .idle
  | .encPut | .encFinish => some .encoding
  | .decNext => some .decoding
  | .nop | .tblRead | .abort | .softReset => none

/-- `CommandEffect s i t`: command `i`, run in state `s`, ends in `t`. One constructor for each way to end; what the
command checked on its way there is kept where a later proof needs it. -/
inductive CommandEffect (s : State) : Instr → State → Prop
  | badMode {i m} (hi : requiredMode i = some m) (hm : s.mode ≠ m) : CommandEffect s i (raised .badMode s)
  | tableFails {i e} (hi : i ∈ [.tblClear, .tblWrite, .tblRead, .tblInvalidate])
      (he : e ∈ [Result.tableRo, .badIndex, .badLen, .dupSymbol, .prefixConflict]) : CommandEffect s i (raised e s)
  | nop : CommandEffect s .nop { s with result := .ok }
  | tblClear (hrom : s.config.tableRom = false) : CommandEffect s .tblClear { s with table := [], result := .ok }
  | tblWrite (hrom : s.config.tableRom = false) (hidx : s.tblIdx.toNat < s.config.tableDepth)
      (hpos : 1 ≤ s.tblLen.toNat) (hlen : s.tblLen.toNat ≤ s.config.maxLen)
      (hsym : symbolTaken s.table s.tblIdx.toNat s.argSym = false)
      (hcode : prefixTaken s.table s.tblIdx.toNat s.tblLen.toNat (codeOperand s).toNat = false) :
      CommandEffect s .tblWrite { s with table := putEntry s.table s.tblIdx.toNat (newEntry s), result := .ok }
  | tblRead : CommandEffect s .tblRead { s with
      argSym := (entryAt s.table s.tblIdx.toNat).sym, argCode := (entryAt s.table s.tblIdx.toNat).code,
      tblLen := (entryAt s.table s.tblIdx.toNat).len, tblLenValid := (entryAt s.table s.tblIdx.toNat).valid,
      result := .ok }
  | tblInvalidate (hrom : s.config.tableRom = false) :
      CommandEffect s .tblInvalidate { s with table := putEntry s.table s.tblIdx.toNat Entry.empty, result := .ok }
  | encStart (hm : s.mode = .idle) : CommandEffect s .encStart { s with
      ebits := [true], symCount := 0#32, symValid := false, done := false, mode := .encoding, result := .ok }
  | encPutFails {e} (hm : s.mode = .encoding) (he : e = .noSymbol ∨ e = .overflow) :
      CommandEffect s .encPut (raised e s)
  | encPut {i} (hm : s.mode = .encoding) (hi : symLookup s.table s.argSym = some i)
      (hfit : s.ebits.length + (entryAt s.table i).len.toNat ≤ s.config.capBits) : CommandEffect s .encPut { s with
        ebits := s.ebits ++ codeword (entryAt s.table i), symCount := s.symCount + 1#32, result := .ok }
  | encFinishEmpty (hm : s.mode = .encoding) : CommandEffect s .encFinish (raised .empty s)
  | encFinish (hm : s.mode = .encoding) : CommandEffect s .encFinish { s with
      pbuf := writeBytes s.pbuf 0 (pack s.ebits s.byteOrder),
      pktLen := BitVec.ofNat 32 (pack s.ebits s.byteOrder).length, mode := .idle, symValid := false, done := true,
      result := .ok }
  | decStartFails (hm : s.mode = .idle) :
      CommandEffect s .decStart { s with symValid := false, done := false, result := .noSentinel }
  | decStart {z} (hm : s.mode = .idle) (hz : firstOne (unpack (packet s) s.byteOrder) = some z) :
      CommandEffect s .decStart { s with
        dbits := unpack (packet s) s.byteOrder, decPos := BitVec.ofNat 32 (z + 1), symCount := 0#32, mode := .decoding,
        symValid := false, done := false, result := .ok }
  | decNextEnd (hm : s.mode = .decoding) (hp : s.decPos.toNat = s.dbits.length) :
      CommandEffect s .decNext { s with symValid := false, done := true, mode := .idle, result := .ok }
  | decNextFails (hm : s.mode = .decoding) :
      CommandEffect s .decNext { s with symValid := false, mode := .idle, result := .decode }
  | decNext {i k} (hm : s.mode = .decoding) (hp : s.decPos.toNat ≠ s.dbits.length)
      (hg : greedyMatch s.table s.dbits s.decPos.toNat s.config.maxLen 1 = some (i, k)) :
      CommandEffect s .decNext { s with
        decSym := (entryAt s.table i).sym, decPos := BitVec.ofNat 32 (s.decPos.toNat + k),
        symCount := s.symCount + 1#32, symValid := true, result := .ok }
  | abort : CommandEffect s .abort { s with mode := .idle, symValid := false, done := false, result := .ok }
  | softReset : CommandEffect s .softReset (resetRegisters s)

/-- Every command ends in one of the ways of `CommandEffect`. -/
theorem commandEffect_of_exec {i : Instr} {s t : State} (h : exec i s = .next t) : CommandEffect s i t := by
  cases i with
  | nop =>
    obtain rfl := finishOk_eq_next.1 h
    exact .nop
  | tblClear =>
    obtain ⟨hm, rfl⟩ | ⟨-, -, rfl⟩ | ⟨-, hrom, rfl⟩ := execTblClear_cases h
    · exact .badMode rfl hm
    · exact .tableFails (by simp) (by simp)
    · exact .tblClear hrom
  | tblWrite =>
    obtain ⟨hm, rfl⟩ | ⟨-, -, rfl⟩ | ⟨-, hrom, ⟨e, he, rfl⟩ | ⟨hidx, hpos, hlen, hsym, hcode, rfl⟩⟩ :=
      execTblWrite_cases h
    · exact .badMode rfl hm
    · exact .tableFails (by simp) (by simp)
    · exact .tableFails (by simp) (List.mem_cons_of_mem _ he)
    · exact .tblWrite hrom hidx hpos hlen hsym hcode
  | tblRead =>
    obtain ⟨-, rfl⟩ | ⟨-, rfl⟩ := execTblRead_cases h
    · exact .tableFails (by simp) (by simp)
    · exact .tblRead
  | tblInvalidate =>
    obtain ⟨hm, rfl⟩ | ⟨-, -, rfl⟩ | ⟨-, hrom, rfl | rfl⟩ := execTblInvalidate_cases h
    · exact .badMode rfl hm
    · exact .tableFails (by simp) (by simp)
    · exact .tableFails (by simp) (by simp)
    · exact .tblInvalidate hrom
  | encStart =>
    obtain ⟨hm, rfl⟩ | ⟨hm, rfl⟩ := execEncStart_cases h
    · exact .badMode rfl hm
    · exact .encStart hm
  | encPut =>
    obtain ⟨hm, rfl⟩ | ⟨hm, ⟨-, rfl⟩ | ⟨i, hi, ⟨-, rfl⟩ | ⟨hfit, rfl⟩⟩⟩ := execEncPut_cases h
    · exact .badMode rfl hm
    · exact .encPutFails hm (.inl rfl)
    · exact .encPutFails hm (.inr rfl)
    · exact .encPut hm hi hfit
  | encFinish =>
    obtain ⟨hm, rfl⟩ | ⟨hm, -, rfl⟩ | ⟨hm, -, rfl⟩ := execEncFinish_cases h
    · exact .badMode rfl hm
    · exact .encFinishEmpty hm
    · exact .encFinish hm
  | decStart =>
    obtain ⟨hm, rfl⟩ | ⟨hm, -, rfl⟩ | ⟨hm, z, hz, rfl⟩ := execDecStart_cases h
    · exact .badMode rfl hm
    · exact .decStartFails hm
    · exact .decStart hm hz
  | decNext =>
    obtain ⟨hm, rfl⟩ | ⟨hm, ⟨hp, rfl⟩ | ⟨-, -, rfl⟩ | ⟨hp, i, k, hg, rfl⟩⟩ := execDecNext_cases h
    · exact .badMode rfl hm
    · exact .decNextEnd hm hp
    · exact .decNextFails hm
    · exact .decNext hm hp hg
  | abort =>
    obtain rfl := finishOk_eq_next.1 h
    exact .abort
  | softReset =>
    obtain rfl := exec_softReset_eq_next.1 h
    exact .softReset

end Sys2Proof.Machine
end

section
/-! SUPPORT. The machine's invariant over every step (10_state.md R45, R51 to R53, R58, R60, 40_table.md R137). -/

namespace Sys2Proof.Machine

/-- CAP is at most 2^27 in a legal build (10_state.md R58). -/
theorem capBits_le {c : Config} (h : Config.wf c) : c.capBits ≤ 2 ^ 27 := by
  obtain ⟨-, -, -, ⟨-, hbytes⟩, -⟩ := h
  simp only [Config.capBits]
  omega

/-- A symbol that any index reads has SW bits (10_state.md R44, R54). -/
theorem entryAt_sym_lt {c : Config} {t : Table} (h : Table.wf c t) (i : Nat) :
    (entryAt t i).sym.toNat < 2 ^ c.symBits := by
  obtain ⟨hkeys, hentries, -⟩ := h
  unfold entryAt
  cases hg : SMap.get? t i with
  | none => exact Nat.two_pow_pos _
  | some e =>
    obtain ⟨-, -, hsym, -, -⟩ := hentries _ ((SMap.get?_eq_some_iff hkeys i e).1 hg)
    exact hsym

/-- The entry a symbol lookup finds has a codeword of at least one bit (T1 of 10_state.md R45). -/
theorem one_le_len_of_symLookup {c : Config} {t : Table} (h : Table.wf c t) {x : Word} {i : Nat}
    (hi : symLookup t x = some i) : 1 ≤ (entryAt t i).len.toNat := by
  obtain ⟨hkeys, hentries, -⟩ := h
  obtain ⟨e, hmem, -, -⟩ := mem_of_symLookup hi
  obtain ⟨-, -, -, ⟨hpos, -⟩, -⟩ := hentries _ hmem
  rwa [entryAt_of_mem hkeys hmem]

/-- The entry TBL_WRITE writes is well formed once its index and length passed their checks (40_table.md R134). -/
theorem wf_newEntry {s : State} (hsym : s.argSym.toNat < 2 ^ s.config.symBits)
    (hidx : s.tblIdx.toNat < s.config.tableDepth) (hpos : 1 ≤ s.tblLen.toNat)
    (hlen : s.tblLen.toNat ≤ s.config.maxLen) : Entry.wf s.config s.tblIdx.toNat (newEntry s) := by
  have hcode : (codeOperand s).toNat < 2 ^ s.tblLen.toNat := by
    rw [codeOperand_toNat]
    exact Nat.mod_lt _ (Nat.two_pow_pos _)
  exact ⟨hidx, rfl, hsym, ⟨hpos, hlen⟩, hcode⟩

/-- An entry that passed the DUP_SYMBOL and PREFIX_CONFLICT checks is apart from every other (40_table.md R134). -/
theorem apart_newEntry {s : State} {p : Nat × Entry} (hv : p.2.valid = true) (hp : p ∈ s.table)
    (hne : p.1 ≠ s.tblIdx.toNat) (hsym : symbolTaken s.table s.tblIdx.toNat s.argSym = false)
    (hcode : prefixTaken s.table s.tblIdx.toNat s.tblLen.toNat (codeOperand s).toNat = false) :
    Entry.apart (newEntry s) p.2 := by
  constructor
  · intro heq
    exact Bool.false_ne_true (hsym.symm.trans (symbolTaken_iff.2 ⟨p, hp, hne, hv, heq.symm⟩))
  · by_contra hpre
    exact Bool.false_ne_true (hcode.symm.trans (prefixTaken_iff.2 ⟨p, hp, hne, hv, (Bool.not_eq_false _).mp hpre⟩))

/-- TBL_WRITE keeps T1 to T5 (40_table.md R134). -/
theorem wf_tblWrite {s : State} (ht : Table.wf s.config s.table) (harg : s.argSym.toNat < 2 ^ s.config.symBits)
    (hidx : s.tblIdx.toNat < s.config.tableDepth) (hpos : 1 ≤ s.tblLen.toNat)
    (hlen : s.tblLen.toNat ≤ s.config.maxLen) (hsym : symbolTaken s.table s.tblIdx.toNat s.argSym = false)
    (hcode : prefixTaken s.table s.tblIdx.toNat s.tblLen.toNat (codeOperand s).toNat = false) :
    Table.wf s.config (putEntry s.table s.tblIdx.toNat (newEntry s)) := by
  have hne : newEntry s ≠ Entry.empty := fun h => Bool.noConfusion (congrArg Entry.valid h)
  rw [putEntry, if_neg hne]
  refine wf_insertEntry ht (wf_newEntry harg hidx hpos hlen) fun p hp hi => ?_
  obtain ⟨-, hentries, -⟩ := ht
  obtain ⟨-, hv, -⟩ := hentries p hp
  exact apart_newEntry hv hp hi hsym hcode

variable {s t : State}

/-- The invariant does not speak of RESULT. -/
theorem inv_setResult (h : Inv s) (r : Result) : Inv { s with result := r } := { h with }

/-- In IDLE the mode clauses of the invariant ask only that SYM_VALID be 0. -/
theorem inv_toIdle (h : Inv s) (d : Bool) (r : Result) :
    Inv { s with mode := .idle, symValid := false, done := d, result := r } :=
  { h with encoding := nofun, decoding := nofun, symValid := nofun }

/-- An error that does not end the operation sets RESULT only (60_exceptions.md R274). -/
theorem raised_of_not_aborts {e : Result} (he : aborts e = false) (s : State) :
    raised e s = { s with result := e } := by
  simp [raised, he]

/-- No error of a table command ends an operation (60_exceptions.md R270). -/
theorem not_aborts_of_tableError :
    ∀ e ∈ [Result.tableRo, .badIndex, .badLen, .dupSymbol, .prefixConflict], aborts e = false := by decide

/-- An error that ends the operation sets MODE to IDLE beside RESULT (60_exceptions.md R274). -/
theorem raised_of_aborts {e : Result} (he : aborts e = true) (s : State) :
    raised e s = { s with mode := .idle, result := e } := by
  simp [raised, he]

/-- An error that does not end the operation keeps the invariant. -/
theorem inv_raised (h : Inv s) {e : Result} (he : aborts e = false) : Inv (raised e s) :=
  raised_of_not_aborts he s ▸ inv_setResult h e

/-- An error that ends an encode keeps the invariant: SYM_VALID is 0 in ENCODING. -/
theorem inv_raised_of_encoding (h : Inv s) (hm : s.mode = .encoding) {e : Result} (he : aborts e = true) :
    Inv (raised e s) := by
  obtain ⟨-, -, hv, -⟩ := h.encoding hm
  rw [raised_of_aborts he]
  exact { h with encoding := nofun, decoding := nofun, symValid := fun h1 => by simp [hv] at h1 }

/-- In IDLE a new table that meets T1 to T5 keeps the invariant, outside a ROM build. -/
theorem inv_setTable (h : Inv s) (hrom : s.config.tableRom = false) {t : Table} (ht : Table.wf s.config t) :
    Inv { s with table := t, result := .ok } :=
  { h with table := ht, rom := fun hr => by simp [hrom] at hr }

/-- TBL_READ: ARG_SYM takes the symbol of an entry, or 0 (40_table.md R135). -/
theorem inv_tblRead (h : Inv s) (i : Nat) (code : Word) (len : BitVec 6) (valid : Bool) :
    Inv { s with argSym := (entryAt s.table i).sym, argCode := code, tblLen := len, tblLenValid := valid,
                 result := .ok } :=
  { h with argSym := entryAt_sym_lt h.table i }

/-- ENC_START: the sentinel alone fits the buffer (41_encoder.md R161). -/
theorem inv_encStart (h : Inv s) : Inv { s with
    ebits := [true], symCount := 0#32, symValid := false, done := false, mode := .encoding, result := .ok } := by
  have hcap : 1 ≤ s.config.capBits := by
    obtain ⟨-, -, -, ⟨hbytes, -⟩, -⟩ := h.config
    simp only [Config.capBits]
    omega
  exact { h with
    ebits := hcap, symCount := Nat.zero_le _, decoding := nofun, symValid := nofun
    encoding := fun _ => ⟨rfl, Nat.one_pos, rfl, rfl⟩ }

/-- One more symbol counted does not wrap SYM_COUNT (10_state.md R58). -/
theorem toNat_symCount_succ (h : Inv s) : (s.symCount + 1#32).toNat = s.symCount.toNat + 1 := by
  have := h.symCount
  have := capBits_le h.config
  rw [BitVec.toNat_add, show (1#32).toNat = 1 from rfl]
  omega

/-- ENC_PUT: the codeword is at least one bit long, so EBITS stays longer than SYM_COUNT (41_encoder.md R162). -/
theorem inv_encPut (h : Inv s) (hm : s.mode = .encoding) {i : Nat} (hi : symLookup s.table s.argSym = some i)
    (hfit : s.ebits.length + (entryAt s.table i).len.toNat ≤ s.config.capBits) : Inv { s with
      ebits := s.ebits ++ codeword (entryAt s.table i), symCount := s.symCount + 1#32, result := .ok } := by
  obtain ⟨hhead, hcount, hflags⟩ := h.encoding hm
  have hlen : (s.ebits ++ codeword (entryAt s.table i)).length = s.ebits.length + (entryAt s.table i).len.toNat := by
    simp [codeword]
  have hpos := one_le_len_of_symLookup h.table hi
  have hsucc := toNat_symCount_succ h
  exact { h with
    ebits := hlen ▸ hfit
    symCount := by dsimp only; omega
    encoding := fun _ => ⟨by simp [hhead], by dsimp only; omega, hflags⟩
    decoding := fun hd => by simp [hm] at hd }

/-- ENC_FINISH: the packet lies inside PBUF, and PKT_LEN is its length (41_encoder.md R163, R165). -/
theorem inv_encFinish (h : Inv s) (bo : ByteOrder) : Inv { s with
    pbuf := writeBytes s.pbuf 0 (pack s.ebits bo), pktLen := BitVec.ofNat 32 (pack s.ebits bo).length,
    mode := .idle, symValid := false, done := true, result := .ok } := by
  obtain ⟨hpbuf, hbelow⟩ := h.pbuf
  have hbytes : (pack s.ebits bo).length ≤ s.config.pbufBytes := by
    have := h.ebits
    rw [length_pack]
    simp only [Config.capBits] at this
    omega
  exact { inv_toIdle h true .ok with
    pbuf := ⟨Memory.wf_writeBytes hpbuf 0 _, fun p hp => by
      rcases mem_writeBytes hp with ⟨-, hlt⟩ | hmem
      · dsimp only; omega
      · exact hbelow p hmem⟩
    pktLen := (Nat.mod_le _ _).trans hbytes }

/-- DEC_START: DBITS is the unpacked packet and the sentinel lies inside it (42_decoder.md R190 to R192). -/
theorem inv_decStart (h : Inv s) {d : Bits} (hd : d.length = 8 * s.pktLen.toNat) {z : Nat} (hz : firstOne d = some z) :
    Inv { s with dbits := d, decPos := BitVec.ofNat 32 (z + 1), symCount := 0#32, mode := .decoding, symValid := false,
                 done := false, result := .ok } := by
  have hlt := firstOne_lt hz
  have hcap : d.length ≤ s.config.capBits := by
    have := h.pktLen
    simp only [Config.capBits]
    omega
  have hpos : (BitVec.ofNat 32 (z + 1)).toNat = z + 1 := by
    have := capBits_le h.config
    rw [BitVec.toNat_ofNat]
    omega
  exact { h with
    dbits := ⟨hcap, ⟨_, hd⟩⟩, symCount := Nat.zero_le _, encoding := nofun, symValid := nofun
    decPos := by dsimp only; omega
    decoding := fun _ => ⟨by simp [hpos], rfl⟩ }

/-- DEC_NEXT with a symbol: DEC_POS passes at least one bit and stays inside DBITS (42_decoder.md R193). -/
theorem inv_decNext (h : Inv s) (hm : s.mode = .decoding) {i k : Nat} (hk : 1 ≤ k)
    (hend : s.decPos.toNat + k ≤ s.dbits.length) : Inv { s with
      decSym := (entryAt s.table i).sym, decPos := BitVec.ofNat 32 (s.decPos.toNat + k),
      symCount := s.symCount + 1#32, symValid := true, result := .ok } := by
  obtain ⟨hcount, hdone⟩ := h.decoding hm
  obtain ⟨hcap, -⟩ := h.dbits
  have hsucc := toNat_symCount_succ h
  have hpos : (BitVec.ofNat 32 (s.decPos.toNat + k)).toNat = s.decPos.toNat + k := by
    have := capBits_le h.config
    rw [BitVec.toNat_ofNat]
    omega
  exact { h with
    decSym := entryAt_sym_lt h.table i
    decPos := by dsimp only; omega
    symCount := by dsimp only; omega
    encoding := fun he => by simp [hm] at he
    decoding := fun _ => ⟨by dsimp only; omega, hdone⟩
    symValid := fun _ => hm }

/-- Every command keeps the invariant. -/
theorem inv_of_commandEffect {i : Instr} (h : Inv s) (he : CommandEffect s i t) : Inv t := by
  cases he with
  | badMode => exact inv_raised h rfl
  | tableFails _ he => exact inv_raised h (not_aborts_of_tableError _ he)
  | nop => exact inv_setResult h .ok
  | tblClear hrom => exact inv_setTable h hrom (wf_nil _)
  | tblWrite hrom hidx hpos hlen hsym hcode =>
    exact inv_setTable h hrom (wf_tblWrite h.table h.argSym hidx hpos hlen hsym hcode)
  | tblRead => exact inv_tblRead h _ _ _ _
  | tblInvalidate hrom => exact inv_setTable h hrom (wf_eraseEntry h.table _)
  | encStart => exact inv_encStart h
  | encPutFails hm he => exact inv_raised_of_encoding h hm (by rcases he with rfl | rfl <;> rfl)
  | encPut hm hi hfit => exact inv_encPut h hm hi hfit
  | encFinishEmpty hm => exact inv_raised_of_encoding h hm rfl
  | encFinish => exact inv_encFinish h _
  | decStartFails hm => exact hm ▸ inv_toIdle h false .noSentinel
  | decStart _ hz => exact inv_decStart h (by simp) hz
  | decNextEnd => exact inv_toIdle h true .ok
  | decNextFails => exact inv_toIdle h s.done .decode
  | decNext hm _ hg =>
    obtain ⟨hk, -, hend, -⟩ := greedyMatch_some hg
    exact inv_decNext h hm hk hend
  | abort => exact inv_toIdle h false .ok
  | softReset => exact inv_resetRegisters h.config h.pbuf

/-- A write to CTRL keeps the invariant. -/
theorem inv_writeCtrl (h : Inv s) (d : Word) : Inv (writeCtrl d s) := by
  obtain ⟨-, heq⟩ | ⟨-, heq⟩ := writeCtrl_cases d s <;> rw [heq]
  · exact inv_raised h rfl
  · exact { h with }

/-- A write to PKT_LEN keeps the invariant: only a length inside PBUF is stored (20_memory.md R76). -/
theorem inv_writePktLen (h : Inv s) (d : Word) : Inv (writePktLen d s) := by
  obtain ⟨-, heq⟩ | ⟨-, -, heq⟩ | ⟨-, hd, heq⟩ := writePktLen_cases d s <;> rw [heq]
  · exact inv_raised h rfl
  · exact inv_raised h rfl
  · exact { h with pktLen := hd }

/-- A write to a byte of PBUF keeps the invariant (20_memory.md R75). -/
theorem inv_writePbuf (h : Inv s) {i : Nat} (hi : i < s.config.pbufBytes) (d : Word) : Inv (writePbuf i d s) := by
  obtain ⟨-, heq⟩ | ⟨-, heq⟩ := writePbuf_cases i d s <;> rw [heq]
  · exact inv_raised h rfl
  · obtain ⟨hpbuf, hbelow⟩ := h.pbuf
    refine { h with pbuf := ⟨Memory.wf_writeByte hpbuf i _, fun p hp => ?_⟩ }
    rcases mem_writeByte hp with rfl | hmem
    · exact hi
    · exact hbelow p hmem

/-- A write to ARG_SYM keeps the invariant: only SW bits are stored (10_state.md R39). -/
theorem inv_writeArgSym (h : Inv s) (d : Word) : Inv { s with argSym := symMask s.config d } :=
  { h with argSym := by rw [argSym_toNat]; exact Nat.mod_lt _ (Nat.two_pow_pos _) }

/-- A write to CMD keeps the invariant, the illegal words included (43_control.md R223). -/
theorem inv_writeCmd (h : Inv s) {w : Word} (hw : writeCmd w s = .next t) : Inv t := by
  obtain ⟨i, -, hi⟩ | ⟨-, rfl⟩ := writeCmd_cases hw
  · exact inv_of_commandEffect h (commandEffect_of_exec hi)
  · exact inv_raised h rfl

/-- Every event from outside keeps the invariant. -/
theorem inv_deliver (h : Inv s) {ev : HostEvent} (hd : deliver ev s = .next t) : Inv t := by
  obtain ⟨-, rfl⟩ | ⟨a, -, rfl⟩ | ⟨a, w, -, -, hw⟩ |
    ⟨a, w, -, -, rfl | ⟨-, rfl⟩ | ⟨-, rfl⟩ | rfl | rfl | rfl | rfl | ⟨i, hi, rfl⟩⟩ := deliver_cases hd
  · exact inv_powerOnReset h.config
  · exact { h with }
  · exact inv_writeCmd h hw
  · exact h
  · exact inv_writeCtrl h w
  · exact inv_writePktLen h w
  · exact inv_writeArgSym h w
  · exact { h with }
  · exact { h with }
  · exact { h with }
  · exact inv_writePbuf h (addr_of_target_pbuf hi).1 w

/-- Settles O50: every event keeps the invariant, command by command and register by register. -/
theorem stepKeepsInvariant : Obligations.StepKeepsInvariant := by
  intro s t h hstep
  obtain ⟨-, rfl⟩ | ⟨ev, rest, -, hd⟩ := step_next_cases hstep
  · exact h
  · exact inv_deliver (s := { s with hostIn := rest }) { h with } hd

end Sys2Proof.Machine
end

section
/-! SUPPORT. A step is a power-on, a command, or an access that leaves the running operation alone. -/

namespace Sys2Proof.Machine

variable {s t : State}

/-- What a host access that runs no command leaves unchanged: the build, MODE, the flags, the table, the sequences and
their counters. -/
structure KeepsOperation (s t : State) : Prop where
  config   : t.config = s.config
  mode     : t.mode = s.mode
  symValid : t.symValid = s.symValid
  done     : t.done = s.done
  table    : t.table = s.table
  ebits    : t.ebits = s.ebits
  dbits    : t.dbits = s.dbits
  symCount : t.symCount = s.symCount
  decSym   : t.decSym = s.decSym
  decPos   : t.decPos = s.decPos

/-- An error that does not end the operation leaves it alone (60_exceptions.md R274). -/
theorem keepsOperation_raised {e : Result} (he : aborts e = false) (s : State) : KeepsOperation s (raised e s) := by
  rw [raised_of_not_aborts he]
  constructor <;> rfl

theorem keepsOperation_writeCtrl (d : Word) (s : State) : KeepsOperation s (writeCtrl d s) := by
  obtain ⟨-, heq⟩ | ⟨-, heq⟩ := writeCtrl_cases d s <;> rw [heq]
  · exact keepsOperation_raised rfl s
  · constructor <;> rfl

theorem keepsOperation_writePktLen (d : Word) (s : State) : KeepsOperation s (writePktLen d s) := by
  obtain ⟨-, heq⟩ | ⟨-, -, heq⟩ | ⟨-, -, heq⟩ := writePktLen_cases d s <;> rw [heq]
  · exact keepsOperation_raised rfl s
  · exact keepsOperation_raised rfl s
  · constructor <;> rfl

theorem keepsOperation_writePbuf (i : Nat) (d : Word) (s : State) : KeepsOperation s (writePbuf i d s) := by
  obtain ⟨-, heq⟩ | ⟨-, heq⟩ := writePbuf_cases i d s <;> rw [heq]
  · exact keepsOperation_raised rfl s
  · constructor <;> rfl

/-- A word address is 0x18 exactly for the four byte addresses of CMD (20_memory.md R71). -/
theorem wordAddr_eq_cmd_iff {a : Word} : wordAddr a = 0x18 ↔ a.toNat / 4 = 0x18 / 4 := by
  rw [wordAddr_eq]
  omega

/-- What one event does: a power-on, a command, or something that leaves the operation alone. -/
theorem deliver_effect {ev : HostEvent} (h : deliver ev s = .next t) :
    (ev = .powerOn ∧ t = powerOnReset s) ∨
    (∃ a w i, ev = .write a w ∧ a.toNat / 4 = 0x18 / 4 ∧ decode w = .ok i ∧ CommandEffect s i t) ∨
    (ev ≠ .powerOn ∧ KeepsOperation s t) := by
  obtain ⟨rfl, rfl⟩ | ⟨a, rfl, rfl⟩ | ⟨a, w, rfl, ha, hw⟩ | ⟨a, w, rfl, -, hw⟩ := deliver_cases h
  · exact .inl ⟨rfl, rfl⟩
  · exact .inr (.inr ⟨nofun, by constructor <;> rfl⟩)
  · obtain ⟨i, hi, hexec⟩ | ⟨-, rfl⟩ := writeCmd_cases hw
    · exact .inr (.inl ⟨a, w, i, rfl, wordAddr_eq_cmd_iff.1 ha, hi, commandEffect_of_exec hexec⟩)
    · exact .inr (.inr ⟨nofun, keepsOperation_raised rfl s⟩)
  · refine .inr (.inr ⟨nofun, ?_⟩)
    obtain rfl | ⟨-, rfl⟩ | ⟨-, rfl⟩ | rfl | rfl | rfl | rfl | ⟨i, -, rfl⟩ := hw
    · constructor <;> rfl
    · exact keepsOperation_writeCtrl w s
    · exact keepsOperation_writePktLen w s
    · constructor <;> rfl
    · constructor <;> rfl
    · constructor <;> rfl
    · constructor <;> rfl
    · exact keepsOperation_writePbuf i w s

/-- What one step does: a power-on, a command at the state with the access taken off, or something that leaves the
operation alone. -/
theorem step_effect (h : step s = .next t) :
    (∃ rest, s.hostIn = .powerOn :: rest ∧ t = powerOnReset { s with hostIn := rest }) ∨
    (∃ a w i rest, s.hostIn = .write a w :: rest ∧ a.toNat / 4 = 0x18 / 4 ∧ decode w = .ok i ∧
      CommandEffect { s with hostIn := rest } i t) ∨
    KeepsOperation s t := by
  obtain ⟨-, rfl⟩ | ⟨ev, rest, hin, hd⟩ := step_next_cases h
  · exact .inr (.inr (by constructor <;> rfl))
  · obtain ⟨rfl, heq⟩ | ⟨a, w, i, rfl, ha, hi, he⟩ | ⟨-, hk⟩ := deliver_effect hd
    · exact .inl ⟨rest, hin, heq⟩
    · exact .inr (.inl ⟨a, w, i, rest, hin, ha, hi, he⟩)
    · exact .inr (.inr { hk with })

/-- No command changes the build (00_scope.md R7). -/
theorem config_of_commandEffect {i : Instr} (h : CommandEffect s i t) : t.config = s.config := by
  cases h <;> rfl

/-- No step changes the build (00_scope.md R7). -/
theorem config_of_step (h : step s = .next t) : t.config = s.config := by
  obtain ⟨rest, -, rfl⟩ | ⟨_, _, _, rest, -, -, -, he⟩ | hk := step_effect h
  · rfl
  · exact (config_of_commandEffect he :)
  · exact hk.config

end Sys2Proof.Machine
end

section
/-! SUPPORT. The code table in the words of 10_state.md R45, and the number of its valid entries (R46, R58). -/

namespace Sys2Proof.Machine

/-- An invalid entry that any index reads is all zeros (T5 of 10_state.md R45): listed entries are valid. -/
theorem entryAt_eq_empty_of_invalid {c : Config} {t : Table} (h : Table.wf c t) {i : Nat}
    (hv : (entryAt t i).valid = false) : entryAt t i = Entry.empty := by
  obtain ⟨hkeys, hentries, -⟩ := h
  unfold entryAt at hv ⊢
  cases hg : SMap.get? t i with
  | none => rfl
  | some e =>
    obtain ⟨-, hvalid, -⟩ := hentries _ ((SMap.get?_eq_some_iff hkeys i e).1 hg)
    rw [hg] at hv
    exact absurd (hvalid.symm.trans hv) (by decide)

/-- A valid entry that an index reads passes the checks on a listed entry. -/
theorem wf_entryAt {c : Config} {t : Table} (h : Table.wf c t) {i : Nat} (hv : (entryAt t i).valid = true) :
    Entry.wf c i (entryAt t i) := by
  obtain ⟨hkeys, hentries, -⟩ := h
  exact hentries _ (mem_of_valid hkeys hv)

/-- Two valid entries at different indices are apart (T3 and T4 of 10_state.md R45). -/
theorem apart_entryAt {c : Config} {t : Table} (h : Table.wf c t) {i j : Nat} (hij : i ≠ j)
    (hi : (entryAt t i).valid = true) (hj : (entryAt t j).valid = true) : Entry.apart (entryAt t i) (entryAt t j) := by
  obtain ⟨hkeys, -, hapart⟩ := h
  have hsymm : Std.Symm (fun p q : Nat × Entry => Entry.apart p.2 q.2) := ⟨fun _ _ => apart_symm⟩
  exact hapart.forall (mem_of_valid hkeys hi) (mem_of_valid hkeys hj) fun h => hij (congrArg Prod.fst h)

/-- The list form of the table's invariant gives T1 to T5 in the words of 10_state.md R45. -/
theorem tableInvariant_of_wf {c : Config} {t : Table} (h : Table.wf c t) : TableInvariant c t where
  depth _ hv := by
    obtain ⟨hdepth, -⟩ := wf_entryAt h hv
    exact hdepth
  t1 _ hv := by
    obtain ⟨-, -, -, hlen, -⟩ := wf_entryAt h hv
    exact hlen
  t2 _ hv := by
    obtain ⟨-, -, -, -, hcode⟩ := wf_entryAt h hv
    exact hcode
  t3 _ _ hij hi hj := (apart_entryAt h hij hi hj).1
  t4 _ _ hij hi hj := (apart_entryAt h hij hi hj).2
  t5 _ := entryAt_eq_empty_of_invalid h

/-- Settles O17: the invariant holds the list form of T1 to T5, and every step keeps it. -/
theorem tableInvariantAtEveryMoment : Obligations.TableInvariantAtEveryMoment :=
  fun s h => ⟨tableInvariant_of_wf h.table, fun t ht => tableInvariant_of_wf (stepKeepsInvariant s t h ht).table⟩

/-- The listed indices of a table are exactly the valid ones below TABLE_DEPTH. -/
theorem mem_keys_iff {c : Config} {t : Table} (h : Table.wf c t) (i : Nat) :
    i ∈ t.map Prod.fst ↔ i ∈ (List.range c.tableDepth).filter (fun i => (entryAt t i).valid) := by
  obtain ⟨hkeys, hentries, -⟩ := h
  simp only [List.mem_map, List.mem_filter, List.mem_range]
  constructor
  · rintro ⟨⟨i, e⟩, hmem, rfl⟩
    obtain ⟨hdepth, hv, -⟩ := hentries _ hmem
    exact ⟨hdepth, by rwa [entryAt_of_mem hkeys hmem]⟩
  · rintro ⟨-, hv⟩
    exact ⟨_, mem_of_valid hkeys hv, rfl⟩

/-- TBL_COUNT counts the valid entries (10_state.md R46): every listed entry is valid, and no index is listed twice. -/
theorem validCount_eq {c : Config} {t : Table} (h : Table.wf c t) :
    validCount t = ((List.range c.tableDepth).filter (fun i => (entryAt t i).valid)).length := by
  obtain ⟨hrising, hentries, -⟩ := id h
  have hall : t.filter (fun p => p.2.valid) = t := List.filter_eq_self.2 fun p hp => by
    obtain ⟨-, hv, -⟩ := hentries p hp
    exact hv
  have hkeys : (t.map Prod.fst).Nodup := List.pairwise_map.2 (hrising.imp Nat.ne_of_lt)
  have hperm := (List.perm_ext_iff_of_nodup hkeys (List.nodup_range.filter _)).2 (mem_keys_iff h)
  rw [validCount, hall, ← hperm.length_eq, List.length_map]

/-- TBL_COUNT is at most TABLE_DEPTH (10_state.md R58). -/
theorem validCount_le {c : Config} {t : Table} (h : Table.wf c t) : validCount t ≤ c.tableDepth := by
  rw [validCount_eq h]
  exact (List.length_filter_le _ _).trans_eq List.length_range

end Sys2Proof.Machine
end

section
/-! SUPPORT. A command's word decodes to that command and no other word does (30_encoding.md R100, R101). -/

namespace Sys2Proof.Machine

/-- The opcode map is read back by the encoder (30_encoding.md R101). -/
theorem opcode_of_decodeOp {op : BitVec 8} {i : Instr} (h : decodeOp op = .ok i) : opcode i = op := by
  unfold decodeOp at h
  split at h
  case h_13 => cases h
  all_goals
    obtain rfl := Except.ok.inj h
    exact BitVec.eq_of_toNat_eq (Eq.symm ‹_›)

/-- A word that decodes to a command is that command's word (30_encoding.md R100, R101). -/
theorem encode_of_decode {w : Word} {i : Instr} (h : decode w = .ok i) : encode i = w := by
  unfold decode at h
  split_ifs at h with hrsv
  rw [encode, opcode_of_decodeOp h, ← hrsv]
  exact BitVec.extractLsb'_append_extractLsb'_eq_extractLsb' rfl |>.trans BitVec.extractLsb'_eq_self

/-- Every command's word decodes to it (30_encoding.md R101). -/
theorem decode_encode (i : Instr) : decode (encode i) = .ok i := by
  cases i <;> rfl

end Sys2Proof.Machine
end

section
/-! SUPPORT. Flags, modes and counters over a step (10_state.md R36, R58, R60). -/

namespace Sys2Proof.Machine

variable {s t : State}

/-- Settles O47: each way a command can end gives its row of the flag table, with the invariant's flags in ENCODING and
DECODING; any other access but a power-on leaves the operation alone. -/
theorem flagTable : Obligations.FlagTable := by
  refine ⟨fun i s t hs h => ?_, fun s t ev rest hin h => ?_⟩
  · cases commandEffect_of_exec h with
    | badMode hi =>
      cases i with
      | abort | softReset => cases hi
      | _ => rfl
    | tableFails hi => fin_cases hi <;> rfl
    | nop | tblClear | tblWrite | tblRead | tblInvalidate | encPut | encPutFails => rfl
    | encStart | encFinish | decStart | decStartFails | abort | softReset => rfl
    | encFinishEmpty hm =>
      obtain ⟨-, -, hv, hd⟩ := hs.encoding hm
      simp [hv, hd]
    | decNextEnd _ hp => simp [hp]
    | decNextFails hm =>
      obtain ⟨-, hd⟩ := hs.decoding hm
      simp [hd]
    | decNext hm hp =>
      obtain ⟨-, hd⟩ := hs.decoding hm
      simp [hd, hp]
  · rw [step_cons hin] at h
    obtain ⟨rfl, rfl⟩ | ⟨a, w, i, rfl, ha, hi, -⟩ | ⟨hne, hk⟩ := deliver_effect h
    · exact ⟨fun _ => ⟨rfl, rfl⟩, fun hne => absurd rfl hne⟩
    · exact ⟨nofun, fun _ hno => absurd hi (hno a w i rfl ha)⟩
    · exact ⟨fun he => absurd he hne, fun _ _ => ⟨hk.symValid, hk.done⟩⟩

/-- What a command does to MODE: it starts an operation from IDLE, ends one, or leaves MODE alone (10_state.md R36). -/
theorem mode_of_commandEffect {i : Instr} (h : CommandEffect s i t) :
    t.mode = s.mode ∨
    (i = .encStart ∧ s.mode = .idle ∧ t.mode = .encoding ∧ t.result = .ok) ∨
    (i = .decStart ∧ s.mode = .idle ∧ t.mode = .decoding ∧ t.result = .ok) ∨
    (t.mode = .idle ∧
      (i = .abort ∨ i = .softReset ∨
        (s.mode = .encoding ∧ (i = .encFinish ∨ i = .encPut ∧ t.result ≠ .ok)) ∨
        (s.mode = .decoding ∧ i = .decNext ∧ (s.decPos.toNat = s.dbits.length ∨ t.result = .decode)))) := by
  cases h with
  | badMode => exact .inl rfl
  | tableFails _ he => exact .inl (by rw [raised_of_not_aborts (not_aborts_of_tableError _ he)])
  | nop | tblClear | tblWrite | tblRead | tblInvalidate | encPut | decNext | decStartFails => exact .inl rfl
  | encStart hm => exact .inr (.inl ⟨rfl, hm, rfl, rfl⟩)
  | decStart hm => exact .inr (.inr (.inl ⟨rfl, hm, rfl, rfl⟩))
  | encPutFails hm he =>
    rcases he with rfl | rfl <;> exact .inr (.inr (.inr ⟨rfl, .inr (.inr (.inl ⟨hm, .inr ⟨rfl, nofun⟩⟩))⟩))
  | encFinishEmpty hm | encFinish hm => exact .inr (.inr (.inr ⟨rfl, .inr (.inr (.inl ⟨hm, .inl rfl⟩))⟩))
  | decNextEnd hm hp => exact .inr (.inr (.inr ⟨rfl, .inr (.inr (.inr ⟨hm, rfl, .inl hp⟩))⟩))
  | decNextFails hm => exact .inr (.inr (.inr ⟨rfl, .inr (.inr (.inr ⟨hm, rfl, .inr rfl⟩))⟩))
  | abort => exact .inr (.inr (.inr ⟨rfl, .inl rfl⟩))
  | softReset => exact .inr (.inr (.inr ⟨rfl, .inr (.inl rfl)⟩))

/-- Settles O48: what each command does to MODE, and that no other access changes it but a power-on. -/
theorem modeTable : Obligations.ModeTable := by
  intro s t h runs powered
  obtain ⟨rest, hin, rfl⟩ | ⟨a, w, i, rest, hin, ha, hi, he⟩ | hk := step_effect h
  · have hp : powered := ⟨rest, hin⟩
    simp [hp]
  · have hrun : runs i := ⟨a, rest, encode_of_decode hi ▸ hin, ha⟩
    have hmode := mode_of_commandEffect he
    dsimp only at hmode
    obtain hm | ⟨rfl, hm, hm', hr⟩ | ⟨rfl, hm, hm', hr⟩ | ⟨hm', hcause⟩ := hmode
    · simp +contextual [hm]
    · simp [hm, hm', hr, hrun]
    · simp [hm, hm', hr, hrun]
    · obtain rfl | rfl | ⟨hm, rfl | ⟨rfl, hr⟩⟩ | ⟨hm, rfl, hr⟩ := hcause <;> simp [*]
  · simp +contextual [hk.mode]

/-- What a command does to SYM_COUNT: it starts the count, leaves it, or counts one symbol (10_state.md R48). -/
theorem symCount_of_commandEffect {i : Instr} (h : CommandEffect s i t) :
    t.symCount = 0#32 ∨ t.symCount = s.symCount ∨ t.symCount = s.symCount + 1#32 := by
  cases h with
  | encStart | decStart | softReset => exact .inl rfl
  | encPut | decNext => exact .inr (.inr rfl)
  | _ => exact .inr (.inl rfl)

/-- What a step does to SYM_COUNT. -/
theorem symCount_of_step (h : step s = .next t) :
    t.symCount = 0#32 ∨ t.symCount = s.symCount ∨ t.symCount = s.symCount + 1#32 := by
  obtain ⟨rest, -, rfl⟩ | ⟨_, _, _, rest, -, -, -, he⟩ | hk := step_effect h
  · exact .inl rfl
  · exact (symCount_of_commandEffect he :)
  · exact .inr (.inl hk.symCount)

/-- Settles O52: the bounds are the invariant's after the step, and SYM_COUNT's increment stays below them. -/
theorem noCounterWraps : Obligations.NoCounterWraps := by
  intro s t hs h
  have ht : Inv t := stepKeepsInvariant s t hs h
  obtain ⟨-, -, ⟨-, hdepth⟩, -, -⟩ := hs.config
  have hcap : t.config.capBits = 8 * s.config.pbufBytes := by rw [config_of_step h, Config.capBits]
  obtain ⟨hdbits, -⟩ := ht.dbits
  refine ⟨?_, hcap ▸ ht.ebits, hcap ▸ ht.symCount, hcap ▸ ht.decPos.trans hdbits, ?_, capBits_le hs.config, ?_, hdepth⟩
  · obtain hz | heq | hsucc := symCount_of_step h
    · exact .inl (by rw [hz]; rfl)
    · exact .inr (.inl heq)
    · exact .inr (.inr (by rw [hsucc, toNat_symCount_succ hs]))
  · have hpkt := ht.pktLen
    rw [config_of_step h] at hpkt
    omega
  · exact config_of_step h ▸ validCount_le ht.table

end Sys2Proof.Machine
end

section
/-! SUPPORT. What the registers read and what a write to them leaves (10_state.md R31 to R50). -/

namespace Sys2Proof.Machine

variable {s : State}

/-- Of two bit vectors put together, the first stands above the bits of the second. -/
theorem toNat_append_eq_add {n m : Nat} (x : BitVec n) (y : BitVec m) :
    (x ++ y).toNat = x.toNat * 2 ^ m + y.toNat := by
  rw [BitVec.toNat_append, ← Nat.shiftLeft_add_eq_or_of_lt y.isLt, Nat.shiftLeft_eq]

/-- The fields of STATUS as a number (10_state.md R37). -/
theorem toNat_statusWord (s : State) : (statusWord s).toNat =
    (modeCode s.mode).toNat + 4 * s.symValid.toNat + 8 * s.done.toNat + 256 * (resultCode s.result).toNat := by
  simp only [statusWord, toNat_append_eq_add, BitVec.toNat_ofBool, BitVec.toNat_ofNat]
  omega

/-- The fields of TBL_LEN as a number (10_state.md R42). -/
theorem toNat_tblLenWord (s : State) : (tblLenWord s).toNat = s.tblLen.toNat + 2 ^ 31 * s.tblLenValid.toNat := by
  simp only [tblLenWord, toNat_append_eq_add, BitVec.toNat_ofBool, BitVec.toNat_ofNat]
  omega

/-- The fields of CONFIG as a number, in a build whose ORDER and MAX_LEN fit them (10_state.md R32). -/
theorem toNat_configWord {c : Config} (horder : c.order < 8) (hlen : c.maxLen < 64) :
    (configWord c).toNat = c.order + 16 * c.tableRom.toNat + 256 * c.maxLen := by
  simp only [configWord, toNat_append_eq_add, BitVec.toNat_ofBool, BitVec.toNat_ofNat]
  omega

/-- The step that takes a write to a register's address is that register's write. -/
theorem step_writeReg {a v : Word} {rest : List HostEvent} (h : s.hostIn = .write a v :: rest) {r : Reg}
    (ha : wordAddr a = r.offset) : step s = writeReg r v { s with hostIn := rest } := by
  rw [step_cons h, deliver, busWrite_offset _ a v r ha]

/-- The step that takes a read of a register's address answers what the register reads, and nothing else changes. -/
theorem step_readReg {a : Word} {rest : List HostEvent} (h : s.hostIn = .read a :: rest) {r : Reg}
    (ha : wordAddr a = r.offset) :
    step s = .next { s with hostIn := rest, hostOut := s.hostOut ++ [readReg { s with hostIn := rest } r] } := by
  rw [step_cons h, deliver, busRead_offset _ a r ha]
  rfl

/-- A step that writes a word that decodes to a command to CMD is that command (10_state.md R38). -/
theorem step_command {a w : Word} {rest : List HostEvent} {i : Instr} (h : s.hostIn = .write a w :: rest)
    (ha : wordAddr a = 0x18) (hw : decode w = .ok i) : step s = exec i { s with hostIn := rest } := by
  rw [step_writeReg (r := .cmd) h ha, writeReg, writeCmd, hw]

/-- Settles O4: the CMD write and the CMD read, by its four byte addresses. -/
theorem cmdWriteRunsTheCommand : Obligations.CmdWriteRunsTheCommand :=
  ⟨fun _ _ _ _ _ h ha hw => step_command h (wordAddr_eq_cmd_iff.2 ha) hw,
   fun _ _ _ h ha => step_readReg (r := .cmd) h (wordAddr_eq_cmd_iff.2 ha)⟩

/-- Settles O5: the placed word is a CMD write that decodes to the command. -/
theorem fetchedWordRunsNext : Obligations.FetchedWordRunsNext := by
  intro s i
  have hw : BitVec.ofNat 32 ((encode i).toNat % 2 ^ 32) = encode i := by
    rw [Nat.mod_eq_of_lt (encode i).isLt, BitVec.ofNat_toNat, BitVec.setWidth_eq]
  exact step_command (s := s.withFetchWord 32 (encode i).toNat) rfl wordAddr_cmdAddr (by rw [hw, decode_encode])

/-- Settles O35: ID and the build's parameters in their fields, and no step changes the build. -/
theorem buildRegistersAreConstant : Obligations.BuildRegistersAreConstant := by
  intro s hc
  obtain ⟨⟨-, horder⟩, ⟨-, hlen⟩, ⟨-, hdepth⟩, ⟨-, hbytes⟩, -⟩ := hc
  rw [busRead_offset s 0x00#32 .id (by decide), busRead_offset s 0x04#32 .config (by decide),
    busRead_offset s 0x08#32 .cfgDepth (by decide), busRead_offset s 0x0C#32 .cfgPbuf (by decide)]
  refine ⟨rfl, toNat_configWord (by omega) (by omega), ?_, ?_, fun _ => config_of_step⟩
  · exact Nat.mod_eq_of_lt (by omega)
  · exact Nat.mod_eq_of_lt (by omega)

/-- Settles O36: the fields of STATUS, and a write to it as to any read-only register. -/
theorem statusFields : Obligations.StatusFields := by
  refine ⟨fun s => ?_, fun s v rest h => step_writeReg (r := .status) h (by decide)⟩
  rw [busRead_offset s 0x14#32 .status (by decide), readReg, toNat_statusWord]
  congr 2
  · congr 2
    cases s.mode <;> rfl
  · cases s.result <;> rfl

/-- Settles O37: each register by its address; ENC_BITS and TBL_COUNT do not wrap by the invariant. -/
theorem workingRegistersRead : Obligations.WorkingRegistersRead := by
  intro s h
  rw [busRead_offset s 0x10#32 .ctrl (by decide), busRead_offset s 0x1C#32 .argSym (by decide),
    busRead_offset s 0x20#32 .argCode (by decide), busRead_offset s 0x24#32 .tblIdx (by decide),
    busRead_offset s 0x28#32 .tblLen (by decide), busRead_offset s 0x2C#32 .pktLen (by decide),
    busRead_offset s 0x30#32 .encBits (by decide), busRead_offset s 0x34#32 .symCount (by decide),
    busRead_offset s 0x38#32 .decSym (by decide), busRead_offset s 0x3C#32 .decPos (by decide),
    busRead_offset s 0x40#32 .tblCount (by decide)]
  refine ⟨?_, rfl, rfl, ?_, toNat_tblLenWord s, rfl, ?_, rfl, rfl, rfl, ?_⟩
  · simp only [readReg]
    cases s.byteOrder <;> rfl
  · exact BitVec.toNat_setWidth_of_le (by decide)
  · have := h.ebits
    have := capBits_le h.config
    exact Nat.mod_eq_of_lt (by omega)
  · have := validCount_le h.table
    obtain ⟨-, -, ⟨-, hdepth⟩, -, -⟩ := h.config
    rw [← validCount_eq h.table]
    exact Nat.mod_eq_of_lt (by omega)

/-- Settles O42: each write by its register, with the part of the word that it keeps. -/
theorem operandRegisterWrites : Obligations.OperandRegisterWrites := by
  refine fun s v rest => ⟨fun h => ?_, fun h => ?_, fun h => ?_, fun h => ?_⟩
  · exact ⟨_, step_writeReg (r := .argSym) h (by decide), rfl, argSym_toNat s.config v⟩
  · exact step_writeReg (r := .argCode) h (by decide)
  · exact ⟨_, step_writeReg (r := .tblIdx) h (by decide), rfl, by simp [idxField]⟩
  · exact ⟨_, step_writeReg (r := .tblLen) h (by decide), rfl, by simp [lenField]⟩

/-- The addresses whose registers read 0 after reset (10_state.md R59). -/
def zeroAfterReset : List Word :=
  [0x10#32, 0x14#32, 0x18#32, 0x1C#32, 0x20#32, 0x24#32, 0x28#32, 0x2C#32, 0x30#32, 0x34#32, 0x38#32, 0x3C#32, 0x40#32]

/-- Settles O53: the default build's registers right after reset, address by address. -/
theorem resetValues : Obligations.ResetValues := by
  refine ⟨by decide, by decide, by decide, by decide, fun a ha => ?_, rfl, rfl, fun i => rfl⟩
  have hmem : a ∈ zeroAfterReset :=
    (List.mem_map_of_injective (f := BitVec.toNat) fun _ _ => BitVec.eq_of_toNat_eq).1 ha
  fin_cases hmem <;> decide

end Sys2Proof.Machine
end

section
/-! SUPPORT. The packed bitstream (20_memory.md R81, R82, R90): which byte holds each digit of a packet's number, and
that a packet's bytes read back as that number. -/

namespace Sys2Proof.Machine

/-- The bit-string of `m + n` digits is that of the upper `m` digits, then that of the lower `n`. -/
theorem bits_add (v m n : Nat) : bits v (m + n) = bits (v / 2 ^ n) m ++ bits v n := by
  induction m with
  | zero => simp [bits]
  | succ m ih => rw [Nat.add_right_comm, bits, bits, ih, List.cons_append, Nat.testBit_div_two_pow, Nat.add_comm]

@[simp] theorem bits_zero (n : Nat) : bits 0 n = List.replicate n false := by
  induction n with
  | zero => rfl
  | succ n ih => rw [bits, Nat.zero_testBit, ih, List.replicate_succ]

/-- Bit `i` of a bit-string of `L` bits is digit `L-1-i` of its number (20_memory.md R82). -/
theorem testBit_bitsToNat {s : Bits} {i : Nat} (hi : i < s.length) :
    some ((bitsToNat s).testBit (s.length - 1 - i)) = s[i]? := by
  rw [← getElem?_bits _ hi, bits_bitsToNat]

/-- The byte of an `n`-byte packet that holds digit `d` of its number (20_memory.md R82). -/
def digitByte (n d : Nat) : ByteOrder → Nat
  | .big => n - 1 - d / 8
  | .little => d / 8

theorem digitByte_lt {n d : Nat} (hd : d < 8 * n) (bo : ByteOrder) : digitByte n d bo < n := by
  cases bo <;> simp only [digitByte] <;> omega

/-- That byte is byte `d / 8` of the number, counted from its least significant end (20_memory.md R81). -/
theorem packedByte_digitByte {n d : Nat} (hd : d < 8 * n) (v : Nat) (bo : ByteOrder) :
    packedByte v n bo (digitByte n d bo) = BitVec.ofNat 8 (v >>> (8 * (d / 8))) := by
  cases bo with
  | big => rw [digitByte, packedByte, show n - 1 - (n - 1 - d / 8) = d / 8 by omega]
  | little => rfl

theorem getElem?_pack {s : Bits} {i : Nat} (hi : i < (s.length + 7) / 8) (bo : ByteOrder) :
    (pack s bo)[i]? = some (packedByte (bitsToNat s) ((s.length + 7) / 8) bo i) := by
  simp [pack, packedLen, hi]

/-- Digit `d` of a packet's number is bit `d mod 8` of the byte `digitByte` names (20_memory.md R82). -/
theorem getLsbD_pack {s : Bits} {d : Nat} (hd : d < 8 * ((s.length + 7) / 8)) (bo : ByteOrder) :
    ((pack s bo)[digitByte ((s.length + 7) / 8) d bo]?).map (fun b => b.getLsbD (d % 8)) =
      some ((bitsToNat s).testBit d) := by
  rw [getElem?_pack (digitByte_lt hd bo), packedByte_digitByte hd, Option.map_some, BitVec.getLsbD_ofNat,
    Nat.testBit_shiftRight, Nat.div_add_mod, decide_eq_true (Nat.mod_lt d (by decide)), Bool.true_and]

/-- Settles O21: each digit by `getLsbD_pack`; bit `i` is digit `L-1-i`, and the number has no digit from `L` on. -/
theorem packedBitOrder : Obligations.PackedBitOrder := by
  intro s hs n
  have hpos : 0 < s.length := List.length_pos_iff.2 hs
  have hbit : ∀ i, i < s.length → ∀ bo : ByteOrder,
      ((pack s bo)[digitByte n (s.length - 1 - i) bo]?).map (fun b => b.getLsbD ((s.length - 1 - i) % 8)) = s[i]? :=
    fun i hi bo => (getLsbD_pack (by omega) bo).trans (testBit_bitsToNat hi)
  have hpad : ∀ d, s.length ≤ d → d < 8 * n → ∀ bo : ByteOrder,
      ((pack s bo)[digitByte n d bo]?).map (fun b => b.getLsbD (d % 8)) = some false := fun d hd hn bo => by
    rw [getLsbD_pack hn, Nat.testBit_eq_false_of_lt]
    exact (bitsToNat_lt s).trans_le (Nat.pow_le_pow_right (by decide) hd)
  have hlast : (s.length - 1) / 8 = n - 1 := by omega
  refine ⟨fun i hi => ⟨hbit i hi .big, hbit i hi .little⟩,
    fun d hd hn => ⟨hpad d hd hn .big, hpad d hd hn .little⟩, ?_, ?_⟩
  · simpa [digitByte, hlast] using hbit 0 hpos .big
  · simpa [digitByte, hlast] using hbit 0 hpos .little

/-- The number of bytes read in one order is that of the reversed bytes read in the other (20_memory.md R90). -/
theorem packetValue_reverse (b : List Byte) : packetValue b.reverse .big = packetValue b .little := by
  simp [packetValue, List.foldl_reverse, Nat.add_comm]

/-- Little-endian, a byte put in front is the least significant, so its bits come last (20_memory.md R90). -/
theorem unpack_little_cons (x : Byte) (b : List Byte) :
    unpack (x :: b) .little = unpack b .little ++ bits x.toNat 8 := by
  have hvalue : packetValue (x :: b) .little = x.toNat + 256 * packetValue b .little := rfl
  have hx : x.toNat < 2 ^ 8 := x.isLt
  rw [unpack, unpack, hvalue, List.length_cons, Nat.mul_succ, bits_add, ← bits_mod_two_pow _ (le_refl 8)]
  congr 2 <;> omega

/-- Little-endian, the bytes are read from the last to the first (20_memory.md R90). -/
theorem unpack_little (b : List Byte) : unpack b .little = b.reverse.flatMap (fun x => bits x.toNat 8) := by
  induction b with
  | nil => rfl
  | cons x b ih => rw [unpack_little_cons, ih, List.reverse_cons, List.flatMap_append, List.flatMap_singleton]

/-- Big-endian, the bytes are read from the first to the last (20_memory.md R90). -/
theorem unpack_big (b : List Byte) : unpack b .big = b.flatMap (fun x => bits x.toNat 8) := by
  have h := unpack_little b.reverse
  rwa [unpack, ← packetValue_reverse, List.reverse_reverse, List.length_reverse] at h

/-- `n` bytes of a number, least significant first, read back as the number modulo 256^n. -/
theorem packetValue_packedBytes (v n : Nat) :
    packetValue ((List.range n).map (packedByte v n .little)) .little = v % 256 ^ n := by
  induction n generalizing v with
  | zero => simp [packetValue, Nat.mod_one]
  | succ n ih =>
    have htail : (List.range n).map (packedByte v (n + 1) .little ∘ Nat.succ) =
        (List.range n).map (packedByte (v / 256) n .little) := by
      refine List.map_congr_left fun i _ => ?_
      simp only [Function.comp_apply, packedByte, Nat.shiftRight_eq_div_pow, Nat.mul_succ]
      rw [Nat.add_comm, pow_add, ← Nat.div_div_eq_div_mul]
      rfl
    rw [List.range_succ_eq_map, List.map_cons, List.map_map, htail, pow_succ', Nat.mod_mul, ← ih]
    simp [packetValue, packedByte]

/-- A big-endian packet is the little-endian one reversed (20_memory.md R81). -/
theorem pack_big (s : Bits) : pack s .big = (pack s .little).reverse := by
  refine List.ext_getElem (by simp) fun i _ _ => ?_
  simp [pack, packedByte]

/-- A packet reads back as the number it was packed from (20_memory.md R81, R90). -/
theorem packetValue_pack (s : Bits) (bo : ByteOrder) : packetValue (pack s bo) bo = bitsToNat s := by
  have hlittle : packetValue (pack s .little) .little = bitsToNat s := by
    rw [pack, packetValue_packedBytes, Nat.mod_eq_of_lt]
    calc bitsToNat s < 2 ^ s.length := bitsToNat_lt s
      _ ≤ 2 ^ (8 * packedLen s) := Nat.pow_le_pow_right (by decide) (by rw [packedLen]; omega)
      _ = 256 ^ packedLen s := pow_mul 2 8 _
  cases bo with
  | big => rw [pack_big, packetValue_reverse, hlittle]
  | little => exact hlittle

/-- Settles O22: the packet's number is the sequence's, so its digits beyond the sequence are 0. -/
theorem unpackInvertsPack : Obligations.UnpackInvertsPack := by
  refine ⟨fun b => ⟨unpack_big b, unpack_little b⟩, fun s bo _ => ?_⟩
  have hlen : 8 * ((s.length + 7) / 8) = 8 * ((s.length + 7) / 8) - s.length + s.length := by omega
  rw [unpack, packetValue_pack, length_pack, hlen, bits_add, Nat.div_eq_of_lt (bitsToNat_lt s), bits_zero,
    bits_bitsToNat, Nat.add_sub_cancel]

end Sys2Proof.Machine
end

section
/-! SUPPORT. The address map and what host accesses leave unchanged (20_memory.md R71 to R79). -/

namespace Sys2Proof.Machine

/-- Addresses of one word reach the same target (20_memory.md R71). -/
theorem target_congr {a b : Word} (h : a.toNat / 4 = b.toNat / 4) (c : Config) : target c a = target c b := by
  rw [target, target, wordAddr_eq, wordAddr_eq, h]

/-- Settles O38: a read and a write depend on the address by its target only. -/
theorem addressLowBitsIgnored : Obligations.AddressLowBitsIgnored := by
  intro s a b v rest h
  have htarget := target_congr h s.config
  refine ⟨?_, ?_⟩
  · rw [step_cons rfl, step_cons rfl, deliver, deliver, busRead, busRead, htarget]
  · rw [step_cons rfl, step_cons rfl, deliver, deliver, busWrite, busWrite, htarget]

/-- The two holes of the address map (20_memory.md R72). -/
theorem target_of_hole {c : Config} {a : Word}
    (h : (0x44 ≤ a.toNat ∧ a.toNat < 0x10000) ∨ 0x10000 + 4 * c.pbufBytes ≤ a.toNat) :
    target c a = .reserved ∨ target c a = .unmapped := by
  rw [target, wordAddr_eq, show pbufBase = 0x10000 from rfl]
  rcases h with ⟨hlo, hhi⟩ | hend
  · rw [if_pos (by omega), regTarget_reserved (by omega)]
    exact .inl rfl
  · rw [if_neg (by omega), if_neg (by omega)]
    exact .inr rfl

/-- Settles O39: both holes of the address map read 0 and take no write. -/
theorem reservedAndUnmappedAddresses : Obligations.ReservedAndUnmappedAddresses := by
  intro s a v rest h
  rcases target_of_hole h with htarget | htarget
  all_goals
    refine ⟨fun hin => ?_, fun hin => ?_⟩
    · rw [step_cons hin, deliver, busRead, htarget]
      rfl
    · rw [step_cons hin, deliver, busWrite, htarget]

/-- Settles O34: a read's step is `respond`, which appends the value. -/
theorem readsHaveNoSideEffect : Obligations.ReadsHaveNoSideEffect :=
  fun s addr rest h => ⟨busRead { s with hostIn := rest } addr, step_cons h⟩

/-- The registers that a host write does not change (20_memory.md R77). -/
def readOnlyRegs : List Reg :=
  [.id, .config, .cfgDepth, .cfgPbuf, .status, .encBits, .symCount, .decSym, .decPos, .tblCount]

theorem writeReg_readOnly {r : Reg} (h : r ∈ readOnlyRegs) (d : Word) (s : State) : writeReg r d s = .next s := by
  fin_cases h <;> rfl

/-- Registers lie at word addresses (10_state.md R30). -/
theorem four_dvd_offset (r : Reg) : 4 ∣ r.offset := by
  cases r <;> decide

/-- Settles O43: each address is the offset of a read-only register. -/
theorem readOnlyWritesIgnored : Obligations.ReadOnlyWritesIgnored := by
  intro s a v rest ha hin
  obtain ⟨r, hr, hoffset⟩ : ∃ r ∈ readOnlyRegs, r.offset = a.toNat := List.mem_map.1 ha
  have haddr : wordAddr a = r.offset := by
    rw [wordAddr_eq, ← hoffset, Nat.div_mul_cancel (four_dvd_offset r)]
  rw [step_writeReg hin haddr, writeReg_readOnly hr]

/-- CTRL keeps bit 0 of the written word (10_state.md R35). -/
theorem byteOrderField_eq (v : Word) : byteOrderField v = if v.toNat % 2 = 0 then .big else .little := by
  rw [byteOrderField, BitVec.getLsbD, Nat.testBit_zero]
  rcases Nat.mod_two_eq_zero_or_one v.toNat with h | h <;> simp [h]

/-- Settles O41: CTRL and PKT_LEN by the cases of their writes; the operand registers' writes touch no other field. -/
theorem rejectedRegisterWrites : Obligations.RejectedRegisterWrites := by
  refine fun s v rest => ⟨fun hin => ?_, fun hin => ?_, fun a ha hin => ?_⟩
  · rw [step_writeReg (r := .ctrl) hin (by decide), writeReg, ← byteOrderField_eq]
    obtain ⟨hm, heq⟩ | ⟨hm, heq⟩ := writeCtrl_cases v { s with hostIn := rest } <;> rw [heq]
    · exact ⟨fun _ => rfl, fun hidle => absurd hidle hm⟩
    · exact ⟨fun hne => absurd hm hne, fun _ => rfl⟩
  · rw [step_writeReg (r := .pktLen) hin (by decide), writeReg]
    obtain ⟨hm, heq⟩ | ⟨hm, hv, heq⟩ | ⟨hm, hv, heq⟩ := writePktLen_cases v { s with hostIn := rest } <;> rw [heq]
    · exact ⟨fun _ => rfl, fun hidle => absurd hidle hm, fun hidle => absurd hidle hm⟩
    · exact ⟨fun hne => absurd hm hne, fun _ _ => rfl, fun _ hle => absurd hv hle.not_gt⟩
    · exact ⟨fun hne => absurd hm hne, fun _ hgt => absurd hgt hv.not_gt, fun _ _ => rfl⟩
  · obtain rfl | rfl | rfl | rfl := ha
    · exact ⟨_, step_writeReg (r := .argSym) hin (by decide), rfl, rfl⟩
    · exact ⟨_, step_writeReg (r := .argCode) hin (by decide), rfl, rfl⟩
    · exact ⟨_, step_writeReg (r := .tblIdx) hin (by decide), rfl, rfl⟩
    · exact ⟨_, step_writeReg (r := .tblLen) hin (by decide), rfl, rfl⟩

end Sys2Proof.Machine
end

section
/-! SUPPORT. The PBUF window (20_memory.md R74, R75): what an access to a byte does, and which steps leave PBUF alone. -/

namespace Sys2Proof.Machine

variable {s t : State}

/-- What fixes how PBUF reads, the bytes written and the draw of the last power-on, is left unchanged. -/
structure KeepsPbuf (s t : State) : Prop where
  pbuf     : t.pbuf = s.pbuf
  powerOns : t.powerOns = s.powerOns

theorem readByte_of_keepsPbuf (h : KeepsPbuf s t) (i : Nat) : readByte t i = readByte s i := by
  rw [readByte, readByte, h.pbuf, h.powerOns]

/-- ENC_FINISH, which goes to IDLE, is the only command that changes PBUF (41_encoder.md R163, 43_control.md R222). -/
theorem keepsPbuf_of_commandEffect {i : Instr} (h : CommandEffect s i t) : t.mode = .idle ∨ KeepsPbuf s t := by
  cases h with
  | encFinish => exact .inl rfl
  | _ => exact .inr ⟨rfl, rfl⟩

theorem keepsPbuf_writeCtrl (d : Word) (s : State) : KeepsPbuf s (writeCtrl d s) := by
  obtain ⟨-, heq⟩ | ⟨-, heq⟩ := writeCtrl_cases d s <;> rw [heq] <;> exact ⟨rfl, rfl⟩

theorem keepsPbuf_writePktLen (d : Word) (s : State) : KeepsPbuf s (writePktLen d s) := by
  obtain ⟨-, heq⟩ | ⟨-, -, heq⟩ | ⟨-, -, heq⟩ := writePktLen_cases d s <;> rw [heq] <;> exact ⟨rfl, rfl⟩

/-- Outside IDLE a write to the PBUF window is rejected (20_memory.md R75). -/
theorem writePbuf_of_not_idle (hm : s.mode ≠ .idle) (i : Nat) (d : Word) : writePbuf i d s = raised .badMode s :=
  if_pos hm

/-- Whatever happens outside IDLE ends in IDLE or leaves PBUF alone (20_memory.md R74). -/
theorem keepsPbuf_of_deliver (hm : s.mode ≠ .idle) {ev : HostEvent} (h : deliver ev s = .next t) :
    t.mode = .idle ∨ KeepsPbuf s t := by
  obtain ⟨-, rfl⟩ | ⟨a, -, rfl⟩ | ⟨a, w, -, -, hw⟩ |
    ⟨a, w, -, -, rfl | ⟨-, rfl⟩ | ⟨-, rfl⟩ | rfl | rfl | rfl | rfl | ⟨i, -, rfl⟩⟩ := deliver_cases h
  · exact .inl rfl
  · exact .inr ⟨rfl, rfl⟩
  · obtain ⟨i, -, hexec⟩ | ⟨-, rfl⟩ := writeCmd_cases hw
    · exact keepsPbuf_of_commandEffect (commandEffect_of_exec hexec)
    · exact .inr ⟨rfl, rfl⟩
  · exact .inr ⟨rfl, rfl⟩
  · exact .inr (keepsPbuf_writeCtrl w s)
  · exact .inr (keepsPbuf_writePktLen w s)
  · exact .inr ⟨rfl, rfl⟩
  · exact .inr ⟨rfl, rfl⟩
  · exact .inr ⟨rfl, rfl⟩
  · exact .inr ⟨rfl, rfl⟩
  · rw [writePbuf_of_not_idle hm]
    exact .inr ⟨rfl, rfl⟩

/-- A step that stays out of IDLE leaves PBUF alone (20_memory.md R74). -/
theorem keepsPbuf_of_step (hs : s.mode ≠ .idle) (ht : t.mode ≠ .idle) (h : step s = .next t) : KeepsPbuf s t := by
  obtain ⟨-, rfl⟩ | ⟨ev, rest, -, hd⟩ := step_next_cases h
  · exact ⟨rfl, rfl⟩
  · exact { (keepsPbuf_of_deliver (s := { s with hostIn := rest }) hs hd).resolve_left ht with }

/-- One byte of PBUF after one byte is written (20_memory.md R75). -/
theorem readByte_writeByte (s : State) (rest : List HostEvent) (i j : Nat) (b : Byte) :
    readByte { s with hostIn := rest, pbuf := writeByte s.pbuf i b } j = if i = j then b else readByte s j := by
  rw [readByte, get?_writeByte]
  split_ifs <;> rfl

/-- A PBUF byte keeps the low eight bits of the written word (20_memory.md R75). -/
theorem toNat_byteField (v : Word) : (byteField v).toNat = v.toNat % 256 := by
  simp [byteField]

/-- The step that takes a write to the word of a PBUF byte is that byte's write. -/
theorem step_writePbuf {a v : Word} {i : Nat} {rest : List HostEvent} (hi : i < s.config.pbufBytes)
    (ha : a.toNat / 4 = 0x4000 + i) (h : s.hostIn = .write a v :: rest) :
    step s = .next (writePbuf i v { s with hostIn := rest }) := by
  rw [step_cons h, deliver, busWrite, target_window hi ha]

/-- The step that takes a read of the word of a PBUF byte answers the byte, zero-extended. -/
theorem step_readPbuf {a : Word} {i : Nat} {rest : List HostEvent} (hi : i < s.config.pbufBytes)
    (ha : a.toNat / 4 = 0x4000 + i) (h : s.hostIn = .read a :: rest) :
    step s = .next { s with hostIn := rest, hostOut := s.hostOut ++ [(readByte s i).setWidth 32] } := by
  rw [step_cons h, deliver, busRead, target_window hi ha]
  rfl

/-- Settles O40: an access to the window by its byte, and the steps that stay out of IDLE by what they keep. -/
theorem pbufWindow : Obligations.PbufWindow := by
  refine ⟨fun s a v i rest hi ha => ⟨fun hin => ?_, fun hin hm => ?_, fun hin hm => ?_⟩,
    fun s t hs h ht => readByte_of_keepsPbuf (keepsPbuf_of_step hs ht h)⟩
  · rw [step_readPbuf hi ha hin, BitVec.ofNat_toNat]
  · refine ⟨{ s with hostIn := rest, pbuf := writeByte s.pbuf i (byteField v) }, ?_, rfl, ?_, fun j hj => ?_⟩
    · rw [step_writePbuf hi ha hin, writePbuf, if_neg (not_not_intro hm)]
    · rw [readByte_writeByte, if_pos rfl, toNat_byteField]
    · rw [readByte_writeByte, if_neg hj.symm]
  · rw [step_writePbuf hi ha hin, writePbuf_of_not_idle (s := { s with hostIn := rest }) hm]
    rfl

end Sys2Proof.Machine
end

section
/-! SUPPORT. Command words as numbers, and what each command leaves unchanged (30_encoding.md R101 to R103, 43_control.md
R223). -/

namespace Sys2Proof.Machine

variable {s t : State}

/-- A command is selected by the whole word: the one that encodes it (30_encoding.md R101). -/
theorem decode_eq_ok_iff {w : Word} {i : Instr} : decode w = .ok i ↔ w = encode i := by
  constructor
  · exact fun h => (encode_of_decode h).symm
  · rintro rfl
    exact decode_encode i

/-- Settles O2: a word decodes to a command exactly when it is the command's word, whose value is in the opcode map. -/
theorem decodeIsInverseOfEncode : Obligations.DecodeIsInverseOfEncode := by
  refine ⟨fun w i => ?_, decode_encode, fun _ _ => encode_of_decode⟩
  rw [decode_eq_ok_iff, ← BitVec.toNat_inj]
  cases i <;> rfl

/-- Settles O1: the twelve words are the commands' encodings. -/
theorem commandWordsDecode : Obligations.CommandWordsDecode :=
  ⟨decode_encode .nop, decode_encode .tblClear, decode_encode .tblWrite, decode_encode .tblRead,
   decode_encode .tblInvalidate, decode_encode .encStart, decode_encode .encPut, decode_encode .encFinish,
   decode_encode .decStart, decode_encode .decNext, decode_encode .abort, decode_encode .softReset⟩

/-- The values of OP that stand for a command (30_encoding.md R101). -/
def assignedOpcodes : List Nat :=
  [0x00, 0x01, 0x02, 0x03, 0x04, 0x10, 0x11, 0x12, 0x20, 0x21, 0xF0, 0xFF]

/-- A command's word has RSV zero and an assigned OP (30_encoding.md R100, R101). -/
theorem encode_fields (i : Instr) :
    (encode i).toNat / 256 = 0 ∧ (encode i).toNat % 256 ∈ assignedOpcodes := by
  cases i <;> decide

/-- A word with RSV not zero or OP unassigned is illegal (30_encoding.md R102). -/
theorem exists_decode_eq_error {w : Word} (h : w.toNat / 256 ≠ 0 ∨ w.toNat % 256 ∉ assignedOpcodes) :
    ∃ r, decode w = .error r := by
  cases hw : decode w with
  | error r => exact ⟨r, rfl⟩
  | ok i =>
    obtain ⟨hrsv, hop⟩ := encode_fields i
    rw [encode_of_decode hw] at hrsv hop
    exact absurd h (by simp [hrsv, hop])

/-- Settles O3: an illegal word decodes to an error, and ILLEGAL_CMD does not end the operation. -/
theorem illegalWordSetsOnlyResult : Obligations.IllegalWordSetsOnlyResult := by
  intro s addr w rest hin haddr hillegal
  obtain ⟨r, hr⟩ := exists_decode_eq_error hillegal
  rw [step_writeReg (r := .cmd) hin (wordAddr_eq_cmd_iff.2 haddr), writeReg, writeCmd, hr]
  rfl

/-- Writing an entry leaves what every other index reads. -/
theorem entryAt_putEntry_of_ne {i j : Nat} (hj : j ≠ i) (t : Table) (e : Entry) :
    entryAt (putEntry t i e) j = entryAt t j := by
  rw [entryAt_putEntry, if_neg hj.symm]

/-- Bytes of PBUF from the packet's length on are as they were (41_encoder.md R163). -/
theorem readByte_beyond_pack {b : Bits} {bo : ByteOrder} (hp : t.pbuf = writeBytes s.pbuf 0 (pack b bo))
    (ho : t.powerOns = s.powerOns) {k : Nat} (hk : (b.length + 7) / 8 ≤ k) : readByte t k = readByte s k := by
  rw [readByte_of_writeBytes hp ho, List.getElem?_eq_none (by rwa [length_pack]), Option.getD_none]

/-- Settles O49: each way a command can end changes its row of 30_encoding.md R103 only; an error changes STATUS alone,
which is in every row. -/
theorem commandFrames : Obligations.CommandFrames := by
  intro i s t h
  cases commandEffect_of_exec h with
  | badMode | tableFails =>
    cases i with
    | tblWrite | tblInvalidate | encFinish => exact ⟨rfl, fun _ _ => rfl⟩
    | softReset => exact ⟨rfl, rfl, rfl, rfl, rfl⟩
    | _ => rfl
  | tblWrite | tblInvalidate => exact ⟨rfl, fun _ hj => by rw [entryAt_putEntry_of_ne hj]⟩
  | encFinishEmpty => exact ⟨rfl, fun _ _ => rfl⟩
  | encFinish => exact ⟨rfl, fun _ hk => readByte_beyond_pack (bo := s.byteOrder) (by rfl) (by rfl) hk⟩
  | softReset => exact ⟨rfl, rfl, rfl, rfl, rfl⟩
  | _ => rfl

end Sys2Proof.Machine
end

section
/-! SUPPORT. The lookups, and codewords of which one begins the other (40_table.md R130 to R132). -/

namespace Sys2Proof.Machine

/-- A search of the list that answers a valid entry with property `P`, and fails only without one, finds the one index
that reads such an entry, if no two entries apart have `P`. -/
theorem search_eq_some_iff {c : Config} {t : Table} (h : Table.wf c t) {o : Option Nat} {P : Entry → Prop}
    (hsome : ∀ i, o = some i → ∃ e, (i, e) ∈ t ∧ e.valid = true ∧ P e)
    (hnone : o = none → ∀ p ∈ t, ¬(p.2.valid = true ∧ P p.2))
    (hunique : ∀ a b, Entry.apart a b → P a → ¬P b) (i : Nat) :
    o = some i ↔ (entryAt t i).valid = true ∧ P (entryAt t i) := by
  obtain ⟨hkeys, -⟩ := id h
  have hfound : ∀ j, o = some j → (entryAt t j).valid = true ∧ P (entryAt t j) := fun j hj => by
    obtain ⟨e, hmem, he⟩ := hsome j hj
    rwa [entryAt_of_mem hkeys hmem]
  refine ⟨hfound i, fun ⟨hv, hp⟩ => ?_⟩
  cases ho : o with
  | none => exact absurd ⟨hv, hp⟩ (hnone ho _ (mem_of_valid hkeys hv))
  | some j =>
    obtain ⟨hvj, hpj⟩ := hfound j ho
    by_contra hij
    exact hunique _ _ (apart_entryAt h (fun heq => hij (congrArg some heq)) hvj hv) hpj hp

/-- A codeword is related to itself (40_table.md R132). -/
theorem inPrefix_self (l c : Nat) : inPrefix l c l c = true := by
  simp [inPrefix]

/-- A symbol lookup gives the one valid entry that holds the symbol: T3 makes it unique (40_table.md R130). -/
theorem symLookup_eq_some_iff {c : Config} {t : Table} (h : Table.wf c t) (x : Word) (i : Nat) :
    symLookup t x = some i ↔ (entryAt t i).valid = true ∧ (entryAt t i).sym = x :=
  search_eq_some_iff h (P := fun e => e.sym = x) (fun _ => mem_of_symLookup) symLookup_eq_none_iff.1
    (fun _ _ ⟨hsym, _⟩ ha hb => hsym (ha.trans hb.symm)) i

/-- A codeword lookup gives the one valid entry of that codeword: T4 makes it unique (40_table.md R131). -/
theorem codeLookup_eq_some_iff {c : Config} {t : Table} (h : Table.wf c t) (l v i : Nat) :
    codeLookup t l v = some i ↔
      (entryAt t i).valid = true ∧ (entryAt t i).len.toNat = l ∧ (entryAt t i).code.toNat = v := by
  refine search_eq_some_iff h (P := fun e => e.len.toNat = l ∧ e.code.toNat = v) (fun _ => mem_of_codeLookup)
    codeLookup_eq_none_iff.1 ?_ i
  rintro a b ⟨-, hapart⟩ ⟨hla, hva⟩ ⟨hlb, hvb⟩
  rw [entryInPrefix, hla, hva, hlb, hvb, inPrefix_self] at hapart
  exact Bool.noConfusion hapart

/-- Settles O18: each lookup answers an entry that fits and fails only without one, and T3 and T4 leave at most one. -/
theorem lookupsFindTheOneEntry : Obligations.LookupsFindTheOneEntry :=
  fun _ _ h => ⟨symLookup_eq_some_iff h, codeLookup_eq_some_iff h⟩

/-- Numbers that fit `n` bits are equal when their bit-strings are (00_scope.md R10). -/
theorem bits_inj {v w n : Nat} (hv : v < 2 ^ n) (hw : w < 2 ^ n) : bits v n = bits w n ↔ v = w := by
  refine ⟨fun h => ?_, fun h => by rw [h]⟩
  have hval := congrArg bitsToNat h
  rwa [bitsToNat_bits, bitsToNat_bits, Nat.mod_eq_of_lt hv, Nat.mod_eq_of_lt hw] at hval

/-- One codeword's bit-string begins another's exactly when the other, shifted right to its length, is its value
(40_table.md R132). -/
theorem bits_prefix_iff {la ca lb cb : Nat} (ha : ca < 2 ^ la) (hb : cb < 2 ^ lb) :
    bits ca la <+: bits cb lb ↔ la ≤ lb ∧ cb >>> (lb - la) = ca := by
  by_cases hle : la ≤ lb
  · obtain ⟨k, rfl⟩ := Nat.exists_eq_add_of_le hle
    have hshift : cb / 2 ^ k < 2 ^ la := Nat.div_lt_of_lt_mul (by rwa [← pow_add, Nat.add_comm])
    rw [bits_add, List.prefix_iff_eq_take, List.take_left' (by simp), bits_inj ha hshift,
      Nat.add_sub_cancel_left, Nat.shiftRight_eq_div_pow, eq_comm]
    exact (and_iff_right hle).symm
  · exact iff_of_false (fun h => hle (by simpa using h.length_le)) fun h => hle h.1

/-- Settles O19: each half of the relation by shifting says that one of the two bit-strings begins the other. -/
theorem prefixRelationIsPrefixOfBitStrings : Obligations.PrefixRelationIsPrefixOfBitStrings := by
  intro la ca lb cb ha hb
  rw [bits_prefix_iff ha hb, bits_prefix_iff hb ha]
  simp [inPrefix]

end Sys2Proof.Machine
end

section
/-! SUPPORT. The table commands in the terms of `entryAt` (40_table.md R133 to R136): their checks and writes. -/

namespace Sys2Proof.Machine

variable {s t : State} {i : Instr}

/-- The commands that modify the table (40_table.md R138). -/
abbrev ModifiesTable (i : Instr) : Prop := i = .tblClear ∨ i = .tblWrite ∨ i = .tblInvalidate

/-- Outside IDLE the commands that modify the table fail with BAD_MODE (40_table.md R138). -/
theorem exec_modifies_of_not_idle (hi : ModifiesTable i) (hm : s.mode ≠ .idle) :
    exec i s = .next { s with result := .badMode } := by
  obtain rfl | rfl | rfl := hi <;> exact if_pos hm

/-- In IDLE of a ROM build the commands that modify the table fail with TABLE_RO (40_table.md R137). -/
theorem exec_modifies_of_rom (hi : ModifiesTable i) (hm : s.mode = .idle) (hrom : s.config.tableRom = true) :
    exec i s = .next { s with result := .tableRo } := by
  obtain rfl | rfl | rfl := hi <;> exact (if_neg (not_not_intro hm)).trans (if_pos hrom)

/-- The written index reads the written entry. -/
theorem entryAt_putEntry_same (t : Table) (i : Nat) (e : Entry) : entryAt (putEntry t i e) i = e := by
  rw [entryAt_putEntry, if_pos rfl]

/-- Settles O11: the two rejections, and the empty table. -/
theorem tblClearRule : Obligations.TblClearRule := by
  refine fun s => ⟨exec_modifies_of_not_idle (.inl rfl), exec_modifies_of_rom (.inl rfl), fun hm hrom => ?_⟩
  refine ⟨{ s with table := [], result := .ok }, ?_, rfl, entryAt_nil, ?_⟩
  · exact (if_neg (not_not_intro hm)).trans (if_neg (ne_true_of_eq_false hrom))
  · exact busRead_offset _ 0x40#32 .tblCount (by decide)

/-- TBL_READ inside the table (40_table.md R135). -/
theorem exec_tblRead (hi : s.tblIdx.toNat < s.config.tableDepth) : exec .tblRead s = .next { s with
    argSym := (entryAt s.table s.tblIdx.toNat).sym, argCode := (entryAt s.table s.tblIdx.toNat).code,
    tblLen := (entryAt s.table s.tblIdx.toNat).len, tblLenValid := (entryAt s.table s.tblIdx.toNat).valid,
    result := .ok } :=
  if_neg hi.not_ge

/-- Settles O13: the two branches of the index check. -/
theorem tblReadRule : Obligations.TblReadRule :=
  fun _ => ⟨fun hi => if_pos hi, exec_tblRead⟩

/-- Settles O14: the three rejections, and the empty entry put at the index. `hexec` is the command past its mode
and ROM checks. -/
theorem tblInvalidateRule : Obligations.TblInvalidateRule := by
  intro s
  have hmodifies : ModifiesTable .tblInvalidate := .inr (.inr rfl)
  refine ⟨exec_modifies_of_not_idle hmodifies, exec_modifies_of_rom hmodifies, fun hm hrom hi => ?_,
    fun hm hrom hi => ?_⟩
  all_goals
    have hexec : exec .tblInvalidate s = _ := (if_neg (not_not_intro hm)).trans (if_neg (ne_true_of_eq_false hrom))
  · exact hexec.trans (if_pos hi)
  · refine ⟨_, hexec.trans (if_neg hi.not_ge), rfl, entryAt_putEntry_same s.table _ Entry.empty, fun j hj => ?_⟩
    exact entryAt_putEntry_of_ne hj s.table Entry.empty

/-- In canonical form, some listed valid entry away from `i` has a property exactly when some index other than `i` reads
one. -/
theorem exists_other_valid_iff {t : Table} (h : SMap.wf t) (i : Nat) (P : Entry → Prop) :
    (∃ p ∈ t, p.1 ≠ i ∧ p.2.valid = true ∧ P p.2) ↔
      ∃ j, j ≠ i ∧ (entryAt t j).valid = true ∧ P (entryAt t j) := by
  simpa only [and_assoc, and_comm (a := P _)] using exists_valid_iff h fun j e => j ≠ i ∧ P e

/-- Settles O12: the two searches are those of `entryAt`; `hexec` follows the command, check by check, to the new entry
put at the index. -/
theorem tblWriteRule : Obligations.TblWriteRule := by
  intro s hw i l c duplicate conflict
  have hmodifies : ModifiesTable .tblWrite := .inr (.inl rfl)
  have hdup : symbolTaken s.table (idxOperand s) (symOperand s) = true ↔ duplicate :=
    symbolTaken_iff.trans (exists_other_valid_iff hw i fun e => e.sym = s.argSym)
  have hconf : prefixTaken s.table (idxOperand s) (lenOperand s) (codeOperand s).toNat = true ↔ conflict := by
    rw [codeOperand_toNat]
    exact prefixTaken_iff.trans (exists_other_valid_iff hw i fun e => inPrefix l c e.len.toNat e.code.toNat = true)
  refine ⟨exec_modifies_of_not_idle hmodifies, exec_modifies_of_rom hmodifies, fun hm hrom => ?_⟩
  have hexec : exec .tblWrite s = _ := (if_neg (not_not_intro hm)).trans (if_neg (ne_true_of_eq_false hrom))
  refine ⟨fun hi => hexec.trans (if_pos hi), fun hi => ?_⟩
  replace hexec := hexec.trans (if_neg hi.not_ge)
  refine ⟨fun hl => hexec.trans (if_pos hl), fun hpos hlen => ?_⟩
  replace hexec := hexec.trans (if_neg (not_or.2 ⟨Nat.ne_of_gt hpos, hlen.not_gt⟩))
  refine ⟨fun hd => hexec.trans (if_pos (hdup.2 hd)), fun hd hc => ?_, fun hd hc => ?_⟩
  all_goals replace hexec := hexec.trans (if_neg fun h => hd (hdup.1 h))
  · exact hexec.trans (if_pos (hconf.2 hc))
  · refine ⟨_, hexec.trans (if_neg fun h => hc (hconf.1 h)), rfl, ?_⟩
    have hnew : entryAt (putEntry s.table i (newEntry s)) i = newEntry s := entryAt_putEntry_same s.table i _
    exact ⟨congrArg Entry.valid hnew, congrArg Entry.sym hnew, congrArg Entry.len hnew,
      (congrArg (fun e => e.code.toNat) hnew).trans (codeOperand_toNat s),
      fun j hj => entryAt_putEntry_of_ne hj s.table (newEntry s)⟩

end Sys2Proof.Machine
end

section
/-! SUPPORT. When the table cannot change: in a ROM build, and while an operation runs (40_table.md R137, R138). -/

namespace Sys2Proof.Machine

variable {s t : State}

/-- In a ROM build a command leaves the table alone or resets it to its image (40_table.md R137). -/
theorem table_of_commandEffect_of_rom {i : Instr} (hrom : s.config.tableRom = true) (h : CommandEffect s i t) :
    t.table = s.table ∨ t.table = s.config.tableInit := by
  cases h with
  | tblClear hram | tblWrite hram | tblInvalidate hram => exact absurd (hrom.symm.trans hram) (by decide)
  | softReset => exact .inr (resetTable_of_rom hrom)
  | _ => exact .inl rfl

/-- In a ROM build a step leaves the table alone or resets it to its image (40_table.md R137). -/
theorem table_of_step_of_rom (hrom : s.config.tableRom = true) (h : step s = .next t) :
    t.table = s.table ∨ t.table = s.config.tableInit := by
  obtain ⟨rest, -, rfl⟩ | ⟨_, _, _, rest, -, -, -, he⟩ | hk := step_effect h
  · exact .inr (resetTable_of_rom hrom)
  · exact (table_of_commandEffect_of_rom (s := { s with hostIn := rest }) hrom he :)
  · exact .inl hk.table

/-- Settles O15: a step by what it does to a ROM table, the reset and the commands by their equations. -/
theorem romTableNeverChanges : Obligations.RomTableNeverChanges := by
  refine fun s hrom => ⟨fun t hstep htable => ?_, fun t h => ?_, fun hm i hi => exec_modifies_of_rom hi hm hrom,
    fun htable hi => ?_⟩
  · rw [config_of_step hstep]
    exact (table_of_step_of_rom hrom hstep).elim (·.trans htable) id
  · rw [exec_softReset_eq_next.1 h]
    exact resetTable_of_rom hrom
  · rw [← htable]
    exact ⟨_, exec_tblRead hi, rfl, rfl, rfl, rfl⟩

/-- What a running operation works from, PBUF apart: the table, the byte order, the packet's length and DBITS. -/
structure KeepsInputs (s t : State) : Prop where
  table     : t.table = s.table
  byteOrder : t.byteOrder = s.byteOrder
  pktLen    : t.pktLen = s.pktLen
  dbits     : t.dbits = s.dbits

/-- Whatever command is run outside IDLE ends in IDLE or leaves the operation's inputs alone (40_table.md R138). -/
theorem keepsInputs_of_exec {i : Instr} (hm : s.mode ≠ .idle) (h : exec i s = .next t) :
    t.mode = .idle ∨ KeepsInputs s t := by
  by_cases hi : ModifiesTable i
  · obtain rfl := Host.Outcome.next.inj ((exec_modifies_of_not_idle hi hm).symm.trans h)
    exact .inr (by constructor <;> rfl)
  · cases commandEffect_of_exec h with
    | tblClear | tblWrite | tblInvalidate => exact absurd (by decide) hi
    | decStart hidle => exact absurd hidle hm
    | encFinish | softReset => exact .inl rfl
    | _ => exact .inr (by constructor <;> rfl)

/-- Whatever happens outside IDLE ends in IDLE or leaves the operation's inputs alone (20_memory.md R86). -/
theorem keepsInputs_of_deliver (hm : s.mode ≠ .idle) {ev : HostEvent} (h : deliver ev s = .next t) :
    t.mode = .idle ∨ KeepsInputs s t := by
  obtain ⟨-, rfl⟩ | ⟨a, -, rfl⟩ | ⟨a, w, -, -, hw⟩ | ⟨a, w, -, -, hw⟩ := deliver_cases h
  · exact .inl rfl
  · exact .inr (by constructor <;> rfl)
  · obtain ⟨i, -, hexec⟩ | ⟨-, rfl⟩ := writeCmd_cases hw
    · exact keepsInputs_of_exec hm hexec
    · exact .inr (by constructor <;> rfl)
  · have hctrl : writeCtrl w s = raised .badMode s := if_pos hm
    have hlen : writePktLen w s = raised .badMode s := if_pos hm
    simp only [hctrl, hlen, writePbuf_of_not_idle hm] at hw
    obtain rfl | ⟨-, rfl⟩ | ⟨-, rfl⟩ | rfl | rfl | rfl | rfl | ⟨i, -, rfl⟩ := hw
    all_goals exact .inr (by constructor <;> rfl)

/-- A step that stays out of IDLE leaves the operation's inputs alone (40_table.md R138, 20_memory.md R86). -/
theorem keepsInputs_of_step (hs : s.mode ≠ .idle) (ht : t.mode ≠ .idle) (h : step s = .next t) :
    KeepsInputs s t := by
  obtain ⟨-, rfl⟩ | ⟨ev, rest, -, hd⟩ := step_next_cases h
  · constructor <;> rfl
  · exact { (keepsInputs_of_deliver (s := { s with hostIn := rest }) hs hd).resolve_left ht with }

/-- Settles O16: a step that stays out of IDLE by what it keeps, and the three commands by their mode check. -/
theorem tableFixedDuringOperation : Obligations.TableFixedDuringOperation := by
  refine ⟨fun s t hs h ht => ?_, fun s i hm hi => exec_modifies_of_not_idle hi hm⟩
  have hk := keepsInputs_of_step hs ht h
  exact ⟨hk.table, hk.byteOrder, hk.pktLen, (keepsPbuf_of_step hs ht h).pbuf, hk.dbits⟩

end Sys2Proof.Machine
end

section
/-! SUPPORT. The encoder commands in the terms of `entryAt` and of PBUF's bytes (41_encoder.md R161 to R163). -/

namespace Sys2Proof.Machine

variable {s t : State}

/-- ENC_START in IDLE (41_encoder.md R161). -/
theorem exec_encStart (hm : s.mode = .idle) : exec .encStart s = .next { s with
    ebits := [true], symCount := 0#32, symValid := false, done := false, mode := .encoding, result := .ok } :=
  if_neg (not_not_intro hm)

/-- Settles O24: the two branches of the mode check. -/
theorem encStartRule : Obligations.EncStartRule :=
  fun _ => ⟨fun hm => if_pos hm, exec_encStart⟩

/-- ENC_PUT in ENCODING, once the lookup found the symbol: the overflow check remains (41_encoder.md R162). -/
theorem exec_encPut_of_symLookup (hm : s.mode = .encoding) {i : Nat} (hi : symLookup s.table s.argSym = some i) :
    exec .encPut s =
      if s.config.capBits < s.ebits.length + (entryAt s.table i).len.toNat then raiseError .overflow s
      else .next { s with
        ebits := s.ebits ++ codeword (entryAt s.table i), symCount := s.symCount + 1#32, result := .ok } := by
  rw [exec, execEncPut, if_neg (not_not_intro hm), symOperand, hi]
  rfl

/-- Settles O25: the lookup finds exactly the valid entry of the symbol, and the overflow check follows it. -/
theorem encPutRule : Obligations.EncPutRule := by
  refine fun s hw => ⟨fun hm => if_pos hm, fun hm => ⟨fun hnone => ?_, fun i hv hsym => ?_⟩⟩
  · have hlookup : symLookup s.table s.argSym = none :=
      Option.eq_none_iff_forall_ne_some.2 fun i hi => hnone i ((symLookup_eq_some_iff hw _ i).1 hi)
    rw [exec, execEncPut, if_neg (not_not_intro hm), symOperand, hlookup]
    rfl
  · rw [exec_encPut_of_symLookup hm ((symLookup_eq_some_iff hw _ i).2 ⟨hv, hsym⟩)]
    exact ⟨fun hover => if_pos hover, fun hfit => if_neg hfit.not_gt⟩

/-- ENC_FINISH in ENCODING with at least one symbol (41_encoder.md R163). -/
theorem exec_encFinish (hm : s.mode = .encoding) (hcount : s.symCount ≠ 0#32) : exec .encFinish s = .next { s with
    pbuf := writeBytes s.pbuf 0 (pack s.ebits s.byteOrder),
    pktLen := BitVec.ofNat 32 (pack s.ebits s.byteOrder).length, mode := .idle, symValid := false, done := true,
    result := .ok } :=
  (if_neg (not_not_intro hm)).trans (if_neg hcount)

/-- ENC_FINISH in ENCODING without a symbol: the flags, which EMPTY keeps, are 0 there (41_encoder.md R163). -/
theorem exec_encFinish_empty (h : Inv s) (hm : s.mode = .encoding) (hcount : s.symCount = 0#32) :
    exec .encFinish s = .next { s with result := .empty, mode := .idle, symValid := false, done := false } := by
  obtain ⟨-, -, hvalid, hdone⟩ := h.encoding hm
  have hexec : exec .encFinish s = .next (raised .empty s) := (if_neg (not_not_intro hm)).trans (if_pos hcount)
  rw [hexec, raised_of_aborts rfl, hvalid, hdone]

/-- The packet of EBITS fits the buffer (41_encoder.md R165). -/
theorem packedLen_ebits_le (h : Inv s) : (s.ebits.length + 7) / 8 ≤ s.config.pbufBytes := by
  have hcap := h.ebits
  rw [Config.capBits] at hcap
  omega

/-- PKT_LEN holds the length of the packet of EBITS without wrapping (41_encoder.md R165). -/
theorem toNat_length_pack (h : Inv s) (bo : ByteOrder) :
    (BitVec.ofNat 32 (pack s.ebits bo).length).toNat = (s.ebits.length + 7) / 8 := by
  have hbytes := packedLen_ebits_le h
  obtain ⟨-, -, -, ⟨-, hmax⟩, -⟩ := h.config
  rw [length_pack, BitVec.toNat_ofNat, Nat.mod_eq_of_lt (by omega)]

/-- A packet's byte is a digit to base 256 of its number, counted as the byte order says (20_memory.md R81). -/
theorem toNat_packedByte (v n : Nat) (bo : ByteOrder) (k : Nat) : (packedByte v n bo k).toNat = match bo with
    | .big => v / 2 ^ (8 * (n - 1 - k)) % 256
    | .little => v / 2 ^ (8 * k) % 256 := by
  cases bo <;> simp [packedByte, Nat.shiftRight_eq_div_pow]

/-- Bytes of PBUF below the packet's length are the packet's (41_encoder.md R163). -/
theorem readByte_within_pack {b : Bits} {bo : ByteOrder} (hp : t.pbuf = writeBytes s.pbuf 0 (pack b bo))
    (ho : t.powerOns = s.powerOns) {k : Nat} (hk : k < (b.length + 7) / 8) :
    readByte t k = packedByte (bitsToNat b) ((b.length + 7) / 8) bo k := by
  rw [readByte_of_writeBytes hp ho, getElem?_pack hk, Option.getD_some]

/-- Settles O26: ENC_FINISH by its equations, and PBUF byte by byte. -/
theorem encFinishRule : Obligations.EncFinishRule := by
  refine fun s h => ⟨fun hm => if_pos hm, exec_encFinish_empty h, fun hm hcount => ?_⟩
  refine ⟨_, exec_encFinish hm hcount, rfl, toNat_length_pack h _, packedLen_ebits_le h, fun k hk => ?_,
    fun k hk => ?_⟩
  · exact (congrArg BitVec.toNat (readByte_within_pack (s := s) (by rfl) (by rfl) hk)).trans (toNat_packedByte _ _ _ k)
  · exact readByte_beyond_pack (s := s) (by rfl) (by rfl) hk

end Sys2Proof.Machine
end

section
/-! SUPPORT. A whole encode (41_encoder.md R164): ENC_START, one `put` per symbol and ENC_FINISH, run access by
access. -/

namespace Sys2Proof.Machine

variable {s t : State} {rest : List HostEvent}

/-- A run takes its first step. -/
theorem run_succ {M : Host.Core} {s t : M.State} (h : M.step s = .next t) (k : Nat) :
    M.run (k + 1) s = M.run k t := by
  rw [Host.Core.run, h]

/-- A run goes on from where its first part ended. -/
theorem run_add {M : Host.Core} {j : Nat} {s t : M.State} (h : M.run j s = .next t) (k : Nat) :
    M.run (j + k) s = M.run k t := by
  induction j generalizing s with
  | zero =>
    obtain rfl := Host.Outcome.next.inj h
    rw [Nat.zero_add]
  | succ j ih =>
    rw [Host.Core.run] at h
    rw [Nat.add_right_comm, Host.Core.run]
    cases hstep : M.step s with
    | next u =>
      rw [hstep] at h
      exact ih h
    | fault r => simp [hstep] at h
    | refused r => simp [hstep] at h

/-- The step that takes a command of a host program runs it (30_encoding.md R108). -/
theorem step_cmd {i : Instr} (hin : s.hostIn = cmd i :: rest) : step s = exec i { s with hostIn := rest } :=
  step_command hin wordAddr_cmdAddr (decode_encode i)

/-- The step that writes a symbol of SW bits to ARG_SYM stores it as it is (10_state.md R39). -/
theorem step_wr_argSym {x : Word} (hx : x.toNat < 2 ^ s.config.symBits) (hin : s.hostIn = wr .argSym x :: rest) :
    step s = .next { s with hostIn := rest, argSym := x } := by
  have hmask : symMask s.config x = x := BitVec.eq_of_toNat_eq (by rw [argSym_toNat, Nat.mod_eq_of_lt hx])
  rw [step_writeReg (r := .argSym) hin (by decide), writeReg, hmask]

/-- One more symbol adds its codeword to the payload (41_encoder.md R164). -/
theorem encodedPayload_concat {tbl : Table} {x : Word} {i : Nat} (hi : symLookup tbl x = some i) (syms : List Word) :
    encodedPayload tbl (syms ++ [x]) = encodedPayload tbl syms ++ codeword (entryAt tbl i) := by
  simp [encodedPayload, hi]

/-- The payload of the first symbols is no longer than that of all. -/
theorem length_encodedPayload_le (tbl : Table) (xs ys : List Word) :
    (encodedPayload tbl xs).length ≤ (encodedPayload tbl (xs ++ ys)).length := by
  simp [encodedPayload]

/-- Some valid entry of the table holds the symbol (40_table.md R130). -/
abbrev HoldsSymbol (tbl : Table) (x : Word) : Prop :=
  ∃ i, (entryAt tbl i).valid = true ∧ (entryAt tbl i).sym = x

/-- `EncodingOf s syms t`: the encode that began in `s` stands in `t`, with the symbols `syms` put so far. -/
structure EncodingOf (s : State) (syms : List Word) (t : State) : Prop where
  inv       : Inv t
  mode      : t.mode = .encoding
  config    : t.config = s.config
  table     : t.table = s.table
  byteOrder : t.byteOrder = s.byteOrder
  ebits     : t.ebits = encodedPayload s.table syms
  symCount  : t.symCount.toNat = syms.length

/-- ENC_START begins an encode without symbols (41_encoder.md R161). -/
theorem encodingOf_start (h : Inv s) (hm : s.mode = .idle) (hin : s.hostIn = cmd .encStart :: rest) :
    ∃ t, core.run 1 s = .next t ∧ EncodingOf s [] t ∧ t.hostIn = rest := by
  have hstep := (step_cmd hin).trans (exec_encStart (s := { s with hostIn := rest }) hm)
  exact ⟨_, run_succ (M := core) hstep 0,
    { inv := inv_encStart (s := { s with hostIn := rest }) { h with }
      mode := rfl, config := rfl, table := rfl, byteOrder := rfl, ebits := rfl, symCount := rfl }, rfl⟩

/-- ENC_PUT of a symbol of the table whose codeword still fits takes the encode one symbol further (41_encoder.md
R162). -/
theorem encodingOf_exec_encPut {syms : List Word} (h : EncodingOf s syms t) (hx : HoldsSymbol s.table t.argSym)
    (hfit : (encodedPayload s.table (syms ++ [t.argSym])).length ≤ s.config.capBits) :
    ∃ u, exec .encPut t = .next u ∧ EncodingOf s (syms ++ [t.argSym]) u ∧ u.hostIn = t.hostIn := by
  obtain ⟨hinv, hm, hconfig, htable, hbo, hebits, hcount⟩ := h
  obtain ⟨i, hentry⟩ := hx
  rw [← htable] at hentry hebits hfit
  rw [← hconfig] at hfit
  have hi := (symLookup_eq_some_iff hinv.table t.argSym i).2 hentry
  rw [encodedPayload_concat hi, ← hebits, List.length_append, codeword, length_bits] at hfit
  refine ⟨_, (exec_encPut_of_symLookup hm hi).trans (if_neg hfit.not_gt), ?_, rfl⟩
  exact
    { inv := inv_encPut hinv hm hi hfit
      mode := hm, config := hconfig, table := htable, byteOrder := hbo
      ebits := by rw [← htable, encodedPayload_concat hi, ← hebits]
      symCount := by rw [List.length_append, ← hcount]; exact toNat_symCount_succ hinv }

/-- A put of a symbol of the table whose codeword still fits takes the encode one symbol further (30_encoding.md R109):
its first access does no more than give ENC_PUT its operand. -/
theorem encodingOf_put {syms : List Word} {x : Word} (h : EncodingOf s syms t) (hx : HoldsSymbol s.table x)
    (hfit : (encodedPayload s.table (syms ++ [x])).length ≤ s.config.capBits) (hin : t.hostIn = put x ++ rest) :
    ∃ u, core.run 2 t = .next u ∧ EncodingOf s (syms ++ [x]) u ∧ u.hostIn = rest := by
  have hwidth : x.toNat < 2 ^ t.config.symBits := by
    obtain ⟨i, -, hsym⟩ := hx
    rw [← hsym, ← h.table]
    exact entryAt_sym_lt h.inv.table i
  have hoperand : EncodingOf s syms { t with hostIn := rest, argSym := x } :=
    { h with inv := { h.inv with argSym := hwidth } }
  obtain ⟨u, hexec, hu⟩ := encodingOf_exec_encPut hoperand hx hfit
  exact ⟨u, (run_succ (M := core) (step_wr_argSym hwidth hin) 1).trans
    (run_succ (M := core) ((step_cmd rfl).trans hexec) 0), hu⟩

/-- Puts of symbols of the table whose codewords all fit, one after the other (41_encoder.md R164). -/
theorem encodingOf_puts {xs syms : List Word} (hxs : ∀ x ∈ xs, HoldsSymbol s.table x) (h : EncodingOf s syms t)
    (hfit : (encodedPayload s.table (syms ++ xs)).length ≤ s.config.capBits)
    (hin : t.hostIn = xs.flatMap put ++ rest) :
    ∃ u, core.run (xs.flatMap put).length t = .next u ∧ EncodingOf s (syms ++ xs) u ∧ u.hostIn = rest := by
  induction xs generalizing syms t with
  | nil => exact ⟨t, rfl, by rwa [List.append_nil], hin⟩
  | cons x xs ih =>
    obtain ⟨hx, hxs⟩ := List.forall_mem_cons.1 hxs
    rw [List.append_cons] at hfit ⊢
    rw [List.flatMap_cons, List.append_assoc] at hin
    obtain ⟨u, hrun, hu, hrest⟩ := encodingOf_put h hx ((length_encodedPayload_le _ _ xs).trans hfit) hin
    obtain ⟨v, hrun', hv⟩ := ih hxs hu hfit hrest
    refine ⟨v, ?_, hv⟩
    rw [List.flatMap_cons, List.length_append]
    exact (run_add hrun _).trans hrun'

/-- The packet after a block of writes from index 0 on whose length PKT_LEN holds is the block. -/
theorem packet_of_writeBytes {bs : List Byte} (hp : t.pbuf = writeBytes s.pbuf 0 bs) (ho : t.powerOns = s.powerOns)
    (hlen : t.pktLen.toNat = bs.length) : packet t = bs := by
  refine List.ext_getElem (by rw [length_packet, hlen]) fun k _ hk => ?_
  simp [packet, readByte_of_writeBytes hp ho, hk]

/-- ENC_FINISH after at least one symbol leaves the packing of the payload in PBUF (41_encoder.md R163, R164). -/
theorem encodingOf_finish {syms : List Word} (h : EncodingOf s syms t) (hne : syms ≠ [])
    (hin : t.hostIn = cmd .encFinish :: rest) :
    ∃ u : State, core.run 1 t = .next u ∧ u.ebits = encodedPayload s.table syms ∧
      packet u = pack (encodedPayload s.table syms) s.byteOrder ∧ u.symCount.toNat = syms.length ∧ u.mode = .idle ∧
      u.done = true ∧ u.result = .ok ∧ u.hostIn = rest := by
  obtain ⟨hinv, hm, -, -, hbo, hebits, hcount⟩ := h
  have hpos : t.symCount ≠ 0#32 := fun h0 => by
    rw [h0] at hcount
    exact hne (List.length_eq_zero_iff.1 hcount.symm)
  have hstep := (step_cmd hin).trans (exec_encFinish (s := { t with hostIn := rest }) hm hpos)
  refine ⟨_, run_succ (M := core) hstep 0, hebits, ?_, hcount, rfl, rfl, rfl, rfl⟩
  rw [← hebits, ← hbo]
  exact packet_of_writeBytes (s := t) rfl rfl ((toNat_length_pack hinv _).trans (length_pack _ _).symm)

/-- Settles O27: ENC_START begins the encode, each put takes it one symbol further, ENC_FINISH packs it. -/
theorem encodeGivesThePackedPayload : Obligations.EncodeGivesThePackedPayload := by
  intro s syms rest h hm hne hsyms hfit hin
  have hin' : s.hostIn = cmd .encStart :: (syms.flatMap put ++ cmd .encFinish :: rest) := by
    rw [hin, encodeEvents, List.cons_append, List.append_assoc, List.singleton_append]
  have hlen : (encodeEvents syms).length = 1 + (syms.flatMap put).length + 1 := by
    rw [encodeEvents, List.length_cons, List.length_append, List.length_singleton]
    omega
  obtain ⟨t₁, hrun₁, h₁, hin₁⟩ := encodingOf_start h hm hin'
  obtain ⟨t₂, hrun₂, h₂, hin₂⟩ := encodingOf_puts hsyms h₁ hfit hin₁
  obtain ⟨t₃, hrun₃, hresult⟩ := encodingOf_finish h₂ hne hin₂
  refine ⟨t₃, ?_, hresult⟩
  calc core.run (encodeEvents syms).length s
      = core.run ((syms.flatMap put).length + 1) t₁ := by rw [hlen, Nat.add_assoc]; exact run_add hrun₁ _
    _ = core.run 1 t₂ := run_add hrun₂ 1
    _ = .next t₃ := hrun₃

end Sys2Proof.Machine
end

section
/-! SUPPORT. The decoder commands (42_decoder.md R191 to R195): the sentinel's index, and the one codeword that the loop
of DEC_NEXT can find. -/

namespace Sys2Proof.Machine

/-- The first 1 bit is at `z` exactly when bit `z` is 1 and every earlier bit is 0 (42_decoder.md R191). -/
theorem firstOne_eq_some_iff {d : Bits} {z : Nat} :
    firstOne d = some z ↔ d[z]? = some true ∧ ∀ j, j < z → d[j]? = some false := by
  induction d generalizing z with
  | nil => simp [firstOne]
  | cons b d ih =>
    cases z with
    | zero => cases b <;> simp [firstOne]
    | succ z =>
      rw [Nat.forall_lt_succ_left]
      cases b <;> simp [firstOne, ih]

/-- There is no first 1 bit exactly when there is no 1 bit (42_decoder.md R191). -/
theorem firstOne_eq_none_iff {d : Bits} : firstOne d = none ↔ true ∉ d := by
  induction d with
  | nil => simp [firstOne]
  | cons b d ih => cases b <;> simp [firstOne, ih]

/-- Settles O23: both parts by induction on the sequence, as `firstOne` recurses. -/
theorem firstOneIsTheFirstOneBit : Obligations.FirstOneIsTheFirstOneBit :=
  ⟨fun _ _ => firstOne_eq_some_iff, fun _ => firstOne_eq_none_iff, rfl⟩

variable {c : Config} {t : Table} {d : Bits} {p : Nat}

/-- An entry's codeword begins what follows the position exactly when the candidate of its length lies inside the
sequence and has its value (42_decoder.md R193). -/
theorem codeword_prefix_iff {e : Entry} (hpos : 1 ≤ e.len.toNat) (hcode : e.code.toNat < 2 ^ e.len.toNat) :
    codeword e <+: d.drop p ↔
      p + e.len.toNat ≤ d.length ∧ e.code.toNat = bitsToNat (slice d p (p + e.len.toNat)) := by
  rw [List.prefix_iff_eq_take, codeword, length_bits, slice_add]
  constructor
  · intro heq
    have hlen := congrArg List.length heq
    rw [length_bits, List.length_take, List.length_drop] at hlen
    exact ⟨by omega, by rw [← heq, bitsToNat_bits, Nat.mod_eq_of_lt hcode]⟩
  · rintro ⟨hfit, hvalue⟩
    have hlen : ((d.drop p).take e.len.toNat).length = e.len.toNat := by
      rw [List.length_take, List.length_drop]
      omega
    calc bits e.code.toNat e.len.toNat
        = bits (bitsToNat ((d.drop p).take e.len.toNat)) ((d.drop p).take e.len.toNat).length := by
          rw [hlen, ← hvalue]
      _ = (d.drop p).take e.len.toNat := bits_bitsToNat _

/-- The candidate of `k` bits is the codeword of entry `i` (42_decoder.md R193). -/
theorem codeLookup_candidate_iff (h : Table.wf c t) {i k : Nat} :
    (p + k ≤ d.length ∧ codeLookup t k (bitsToNat (slice d p (p + k))) = some i) ↔
      (entryAt t i).valid = true ∧ (entryAt t i).len.toNat = k ∧ codeword (entryAt t i) <+: d.drop p := by
  rw [codeLookup_eq_some_iff h]
  constructor
  · rintro ⟨hfit, hv, rfl, hvalue⟩
    obtain ⟨-, -, -, ⟨hpos, -⟩, hcode⟩ := wf_entryAt h hv
    exact ⟨hv, rfl, (codeword_prefix_iff hpos hcode).2 ⟨hfit, hvalue⟩⟩
  · rintro ⟨hv, rfl, hprefix⟩
    obtain ⟨-, -, -, ⟨hpos, -⟩, hcode⟩ := wf_entryAt h hv
    obtain ⟨hfit, hvalue⟩ := (codeword_prefix_iff hpos hcode).1 hprefix
    exact ⟨hfit, hv, rfl, hvalue⟩

/-- Two valid entries whose codewords begin one sequence are the same: T4 of 10_state.md R45 lets no codeword begin
another (42_decoder.md R194). -/
theorem eq_of_codeword_prefix (h : Table.wf c t) {s : Bits} {i j : Nat} (hi : (entryAt t i).valid = true)
    (hj : (entryAt t j).valid = true) (hpi : codeword (entryAt t i) <+: s) (hpj : codeword (entryAt t j) <+: s) :
    i = j := by
  by_contra hij
  obtain ⟨-, -, -, -, hci⟩ := wf_entryAt h hi
  obtain ⟨-, -, -, -, hcj⟩ := wf_entryAt h hj
  obtain ⟨-, hapart⟩ := apart_entryAt h hij hi hj
  have hrel := (prefixRelationIsPrefixOfBitStrings _ _ _ _ hci hcj).2 (List.prefix_or_prefix_of_prefix hpi hpj)
  exact Bool.false_ne_true (hapart.symm.trans hrel)

/-- Settles O30: both codewords begin what follows the position, so the entries are one, and its length both lengths. -/
theorem greedyMatchIsUnambiguous : Obligations.GreedyMatchIsUnambiguous := by
  intro c t d p k1 k2 i1 i2 h hfit1 hfit2 h1 h2
  obtain ⟨hv1, rfl, hp1⟩ := (codeLookup_candidate_iff h).1 ⟨hfit1, h1⟩
  obtain ⟨hv2, rfl, hp2⟩ := (codeLookup_candidate_iff h).1 ⟨hfit2, h2⟩
  have hi : i1 = i2 := eq_of_codeword_prefix h hv1 hv2 hp1 hp2
  exact ⟨by rw [hi], hi⟩

/-- Codewords that a lookup finds have 1 to MAX_LEN bits (T1 of 10_state.md R45). -/
theorem len_of_codeLookup (h : Table.wf c t) {k v i : Nat} (hi : codeLookup t k v = some i) :
    1 ≤ k ∧ k ≤ c.maxLen := by
  obtain ⟨hv, rfl, -⟩ := (codeLookup_eq_some_iff h _ _ _).1 hi
  obtain ⟨-, -, -, hlen, -⟩ := wf_entryAt h hv
  exact hlen

/-- The loop of DEC_NEXT, run to MAX_LEN bits or further, finds exactly the candidate inside the sequence that is a
codeword (42_decoder.md R193 to R195). -/
theorem greedyMatch_eq_some_iff (h : Table.wf c t) {n : Nat} (hn : c.maxLen ≤ n) {i k : Nat} :
    greedyMatch t d p n 1 = some (i, k) ↔
      p + k ≤ d.length ∧ codeLookup t k (bitsToNat (slice d p (p + k))) = some i := by
  refine ⟨fun hg => (greedyMatch_some hg).2.2, fun ⟨hfit, hi⟩ => ?_⟩
  cases hg : greedyMatch t d p n 1 with
  | none =>
    obtain ⟨hpos, hmax⟩ := len_of_codeLookup h hi
    exact nomatch (greedyMatch_none hg k hpos (by omega) hfit).symm.trans hi
  | some m =>
    obtain ⟨j, l⟩ := m
    obtain ⟨-, -, hfit', hj⟩ := greedyMatch_some hg
    obtain ⟨rfl, rfl⟩ := greedyMatchIsUnambiguous _ _ _ _ _ _ _ _ h hfit' hfit hj hi
    rfl

/-- Settles O31: the bound enters `greedyMatch_eq_some_iff` nowhere but in its premise, and no codeword is longer than
MAX_LEN bits. -/
theorem earlyFailureLosesNoMatch : Obligations.EarlyFailureLosesNoMatch := by
  refine fun c t d p h => ⟨fun n hn => ?_, fun hnone k => ?_⟩
  · refine Option.ext fun ⟨i, k⟩ => ?_
    rw [greedyMatch_eq_some_iff h hn, greedyMatch_eq_some_iff h le_rfl]
  · by_contra hk
    obtain ⟨i, hi⟩ := Option.ne_none_iff_exists'.1 hk
    obtain ⟨hpos, hmax⟩ := len_of_codeLookup h hi
    exact hk (hnone k hpos hmax)

end Sys2Proof.Machine
end

section
/-! SUPPORT. What DEC_START and DEC_NEXT do in each case (42_decoder.md R192, R193). -/

namespace Sys2Proof.Machine

variable {s : State}

/-- DEC_START in IDLE on a packet without a 1 bit (42_decoder.md R192). -/
theorem exec_decStart_none (hm : s.mode = .idle) (hz : firstOne (unpack (packet s) s.byteOrder) = none) :
    exec .decStart s = .next { s with symValid := false, done := false, result := .noSentinel } := by
  have hz' : firstOne (unpack (packet (setFlags false false s)) (setFlags false false s).byteOrder) = none := hz
  rw [exec, execDecStart, if_neg (not_not_intro hm)]
  simp only [hz', raiseError, raised_of_not_aborts (e := .noSentinel) rfl]
  rfl

/-- DEC_START in IDLE on a packet whose first 1 bit is bit `z` (42_decoder.md R192). -/
theorem exec_decStart_some (hm : s.mode = .idle) {z : Nat} (hz : firstOne (unpack (packet s) s.byteOrder) = some z) :
    exec .decStart s = .next { s with
      dbits := unpack (packet s) s.byteOrder, decPos := BitVec.ofNat 32 (z + 1), symCount := 0#32, mode := .decoding,
      symValid := false, done := false, result := .ok } := by
  have hz' : firstOne (unpack (packet (setFlags false false s)) (setFlags false false s).byteOrder) = some z := hz
  rw [exec, execDecStart, if_neg (not_not_intro hm)]
  simp only [hz']
  rfl

/-- A position inside the buffer's bits fits DEC_POS (10_state.md R58). -/
theorem toNat_bitPosition (h : Inv s) {n : Nat} (hn : n ≤ s.config.capBits) : (BitVec.ofNat 32 n).toNat = n := by
  have := capBits_le h.config
  rw [BitVec.toNat_ofNat, Nat.mod_eq_of_lt (by omega)]

/-- The packet's bits fit the buffer (10_state.md R43). -/
theorem length_unpack_packet_le (h : Inv s) (bo : ByteOrder) : (unpack (packet s) bo).length ≤ s.config.capBits := by
  rw [length_unpack, length_packet, Config.capBits]
  exact Nat.mul_le_mul_left 8 h.pktLen

/-- Settles O28: `firstOne` decides between the two ends, and an index inside the packet fits DEC_POS. -/
theorem decStartRule : Obligations.DecStartRule := by
  refine fun s h => ⟨fun hm => if_pos hm, fun hm hnone => exec_decStart_none hm (firstOne_eq_none_iff.2 hnone),
    fun hm z hone hzero => ?_⟩
  have hz : firstOne (unpack (packet s) s.byteOrder) = some z := firstOne_eq_some_iff.2 ⟨hone, hzero⟩
  have hend := (firstOne_lt hz).trans_le (length_unpack_packet_le h _)
  exact ⟨_, exec_decStart_some hm hz, rfl, toNat_bitPosition h hend⟩

/-- DEC_NEXT in DECODING at the end of the sequence (42_decoder.md R193). -/
theorem exec_decNext_end (hm : s.mode = .decoding) (hp : s.decPos.toNat = s.dbits.length) :
    exec .decNext s = .next { s with symValid := false, done := true, mode := .idle, result := .ok } :=
  (if_neg (not_not_intro hm)).trans (if_pos hp)

/-- DEC_NEXT in DECODING where no candidate is a codeword (42_decoder.md R193). -/
theorem exec_decNext_none (hm : s.mode = .decoding) (hp : s.decPos.toNat ≠ s.dbits.length)
    (hg : greedyMatch s.table s.dbits s.decPos.toNat s.config.maxLen 1 = none) :
    exec .decNext s = .next { s with symValid := false, result := .decode, mode := .idle } := by
  rw [exec, execDecNext, if_neg (not_not_intro hm), if_neg hp, hg]
  rfl

/-- DEC_NEXT in DECODING where the loop finds the codeword of `k` bits of entry `i` (42_decoder.md R193). -/
theorem exec_decNext_some (hm : s.mode = .decoding) (hp : s.decPos.toNat ≠ s.dbits.length) {i k : Nat}
    (hg : greedyMatch s.table s.dbits s.decPos.toNat s.config.maxLen 1 = some (i, k)) :
    exec .decNext s = .next { s with
      decSym := (entryAt s.table i).sym, decPos := BitVec.ofNat 32 (s.decPos.toNat + k),
      symCount := s.symCount + 1#32, symValid := true, result := .ok } := by
  rw [exec, execDecNext, if_neg (not_not_intro hm), if_neg hp, hg]
  rfl

/-- The loop of DEC_NEXT finds the valid entry whose codeword lies at the position (42_decoder.md R193). -/
theorem greedyMatch_eq_some_iff_matching {c : Config} {t : Table} (h : Table.wf c t) {d : Bits} {p i k : Nat} :
    greedyMatch t d p c.maxLen 1 = some (i, k) ↔
      (entryAt t i).valid = true ∧ (entryAt t i).len.toNat = k ∧ p + k ≤ d.length ∧
        (entryAt t i).code.toNat = bitsToNat ((d.drop p).take k) := by
  rw [greedyMatch_eq_some_iff h le_rfl, codeLookup_eq_some_iff h, slice_add]
  tauto

/-- Settles O29: the loop finds the matching entry or, without one, nothing; DEC_POS stays inside the sequence. -/
theorem decNextRule : Obligations.DecNextRule := by
  refine fun s h => ⟨fun hm => if_pos hm, exec_decNext_end, fun hm hp hnone => exec_decNext_none hm hp ?_,
    fun hm i k hmatch => ?_⟩
  · exact Option.eq_none_iff_forall_ne_some.2 fun ⟨i, k⟩ hg =>
      hnone i k ((greedyMatch_eq_some_iff_matching h.table).1 hg)
  · have hg := (greedyMatch_eq_some_iff_matching h.table).2 hmatch
    obtain ⟨hk, -, hfit, -⟩ := greedyMatch_some hg
    exact ⟨_, exec_decNext_some hm (by omega) hg, rfl, toNat_bitPosition h (hfit.trans h.dbits.1),
      toNat_symCount_succ h⟩

end Sys2Proof.Machine
end

section
/-! SUPPORT. What an encode leaves for a decode that follows it (41_encoder.md R164, 42_decoder.md R196). -/

namespace Sys2Proof.Machine

variable {s t : State} {rest : List HostEvent}

/-- A run of at least one step that has a next state takes a first step and goes on from there. -/
theorem exists_step_of_run_succ {M : Host.Core} {k : Nat} {s t : M.State} (h : M.run (k + 1) s = .next t) :
    ∃ u, M.step s = .next u ∧ M.run k u = .next t := by
  rw [Host.Core.run] at h
  cases hstep : M.step s with
  | next u => exact ⟨u, rfl, by simpa [hstep] using h⟩
  | fault r => simp [hstep] at h
  | refused r => simp [hstep] at h

/-- Every run keeps the invariant. -/
theorem inv_of_run {k : Nat} (h : Inv s) (hrun : core.run k s = .next t) : Inv t := by
  induction k generalizing s with
  | zero =>
    obtain rfl := Host.Outcome.next.inj hrun
    exact h
  | succ k ih =>
    obtain ⟨u, hstep, hrun'⟩ := exists_step_of_run_succ hrun
    exact ih (stepKeepsInvariant s u h hstep) hrun'

/-- A run of the machine takes its first step. -/
theorem core_run_succ (h : step s = .next t) (k : Nat) : core.run (k + 1) s = core.run k t :=
  run_succ (M := core) h k

/-- Two lists of accesses run one after the other. -/
theorem run_append {evs evs' : List HostEvent} {u : State} (h : core.run evs.length s = .next t)
    (h' : core.run evs'.length t = .next u) : core.run (evs ++ evs').length s = .next u := by
  rw [List.length_append]
  exact (run_add h _).trans h'

/-- The address of a register is its own word address (10_state.md R30). -/
theorem wordAddr_offset (r : Reg) : wordAddr (BitVec.ofNat 32 r.offset) = r.offset := by
  cases r <;> decide

/-- The step that takes a read of a register gives the host its value (30_encoding.md R108). -/
theorem step_rd {r : Reg} (hin : s.hostIn = rd r :: rest) :
    step s = .next (respond (readReg s r) { s with hostIn := rest }) := by
  rw [step_readReg hin (wordAddr_offset r)]
  cases r <;> rfl

/-- An access of an encode: a write to ARG_SYM or one of the encoder commands (41_encoder.md R160). -/
abbrev EncodeAccess (ev : HostEvent) : Prop :=
  (∃ x, ev = wr .argSym x) ∨ ∃ i ∈ [Instr.encStart, .encPut, .encFinish], ev = cmd i

/-- What the accesses of an encode leave unchanged: the table, the byte order, what the host has read, and what it will
access after them. -/
structure EncodeFrame (s t : State) : Prop where
  table     : t.table = s.table
  byteOrder : t.byteOrder = s.byteOrder
  hostOut   : t.hostOut = s.hostOut
  hostIn    : t.hostIn = s.hostIn

/-- The encoder commands change neither the table nor the byte order, and answer no read (30_encoding.md R103). -/
theorem encodeFrame_of_commandEffect {i : Instr} (hi : i ∈ [Instr.encStart, .encPut, .encFinish])
    (h : CommandEffect s i t) : EncodeFrame s t := by
  cases h with
  | tblClear | tblWrite | tblInvalidate | softReset => exact absurd hi (by decide)
  | _ => constructor <;> rfl

/-- One access of an encode takes itself off the host's list and keeps the rest of the frame. -/
theorem encodeFrame_of_step {ev : HostEvent} (hev : EncodeAccess ev) (hin : s.hostIn = ev :: rest)
    (h : step s = .next t) : EncodeFrame { s with hostIn := rest } t := by
  obtain ⟨x, rfl⟩ | ⟨i, hi, rfl⟩ := hev
  · rw [step_writeReg (r := .argSym) hin (by decide)] at h
    obtain rfl := Host.Outcome.next.inj h
    constructor <;> rfl
  · rw [step_cmd hin] at h
    exact encodeFrame_of_commandEffect hi (commandEffect_of_exec h)

/-- The accesses of an encode, one after the other, keep the frame. -/
theorem encodeFrame_of_run {evs : List HostEvent} (hevs : ∀ ev ∈ evs, EncodeAccess ev) (hin : s.hostIn = evs ++ rest)
    (h : core.run evs.length s = .next t) : EncodeFrame { s with hostIn := rest } t := by
  induction evs generalizing s with
  | nil =>
    obtain rfl := Host.Outcome.next.inj h
    exact ⟨rfl, rfl, rfl, hin⟩
  | cons ev evs ih =>
    obtain ⟨hev, hevs⟩ := List.forall_mem_cons.1 hevs
    obtain ⟨u, hstep, hrun⟩ := exists_step_of_run_succ h
    have hfirst := encodeFrame_of_step hev hin hstep
    have hrest := ih hevs hfirst.hostIn hrun
    exact ⟨hrest.table.trans hfirst.table, hrest.byteOrder.trans hfirst.byteOrder,
      hrest.hostOut.trans hfirst.hostOut, hrest.hostIn⟩

/-- Every access of `encodeEvents` is an access of an encode. -/
theorem encodeAccess_of_mem_encodeEvents {syms : List Word} : ∀ ev ∈ encodeEvents syms, EncodeAccess ev := by
  intro ev hev
  simp only [encodeEvents, put, List.mem_cons, List.mem_append, List.mem_flatMap, List.not_mem_nil, or_false] at hev
  obtain rfl | ⟨x, -, rfl | rfl⟩ | rfl := hev
  · exact .inr ⟨.encStart, by decide, rfl⟩
  · exact .inl ⟨x, rfl⟩
  · exact .inr ⟨.encPut, by decide, rfl⟩
  · exact .inr ⟨.encFinish, by decide, rfl⟩

end Sys2Proof.Machine
end

section
/-! SUPPORT. A decode of an encoded payload (42_decoder.md R196): DEC_START skips the padding and the sentinel, and each
DEC_NEXT passes one symbol's codeword. -/

namespace Sys2Proof.Machine

variable {s t : State} {tbl : Table} {n : Nat} {x : Word} {xs : List Word} {rest : List HostEvent}

/-- The codewords of the symbols, in order: what follows the sentinel in the payload (41_encoder.md R164). -/
def codewords (tbl : Table) (xs : List Word) : Bits :=
  xs.flatMap (fun x => codeword (entryAt tbl ((symLookup tbl x).getD 0)))

theorem encodedPayload_eq (tbl : Table) (xs : List Word) : encodedPayload tbl xs = true :: codewords tbl xs := rfl

theorem codewords_cons {i : Nat} (hi : symLookup tbl x = some i) (xs : List Word) :
    codewords tbl (x :: xs) = codeword (entryAt tbl i) ++ codewords tbl xs := by
  simp [codewords, hi]

/-- Behind zero padding the first 1 bit is the sentinel (42_decoder.md R191). -/
theorem firstOne_padded (k : Nat) (d : Bits) : firstOne (List.replicate k false ++ true :: d) = some k := by
  induction k with
  | zero => rfl
  | succ k ih => rw [List.replicate_succ, List.cons_append, firstOne, ih, Option.map_some]

/-- `DecodingOf tbl n xs t`: a decode with the table `tbl` stands in `t`, with `n` symbols delivered and exactly the
codewords of `xs` still to come. -/
structure DecodingOf (tbl : Table) (n : Nat) (xs : List Word) (t : State) : Prop where
  inv      : Inv t
  mode     : t.mode = .decoding
  table    : t.table = tbl
  symCount : t.symCount.toNat = n
  ahead    : t.dbits.drop t.decPos.toNat = codewords tbl xs

/-- DEC_START on the packet of a payload begins the decode of its symbols (42_decoder.md R192). -/
theorem decodingOf_start (h : Inv s) (hm : s.mode = .idle)
    (hpacket : packet s = pack (encodedPayload s.table xs) s.byteOrder) (hin : s.hostIn = cmd .decStart :: rest) :
    ∃ u, core.run [cmd .decStart].length s = .next u ∧ DecodingOf s.table 0 xs u ∧ u.hostOut = s.hostOut ∧
      u.hostIn = rest := by
  obtain ⟨k, hd⟩ : ∃ k, unpack (packet s) s.byteOrder = List.replicate k false ++ true :: codewords s.table xs :=
    ⟨_, by rw [hpacket, unpackInvertsPack.2 _ _ (by simp [encodedPayload_eq]), encodedPayload_eq]⟩
  have hz : firstOne (unpack (packet s) s.byteOrder) = some k := by rw [hd, firstOne_padded]
  have hpos := toNat_bitPosition h ((firstOne_lt hz).trans_le (length_unpack_packet_le h _))
  have hstep := (step_cmd hin).trans (exec_decStart_some (s := { s with hostIn := rest }) hm hz)
  refine ⟨_, core_run_succ hstep 0, ?_, rfl, rfl⟩
  exact
    { inv := inv_decStart (s := { s with hostIn := rest }) { h with } (by simp) hz
      mode := rfl, table := rfl, symCount := rfl
      ahead := by
        dsimp only
        rw [hpos, show packet { s with hostIn := rest } = packet s from rfl, hd]
        simp [List.drop_append] }

/-- STATUS after a symbol was delivered: SYM_VALID and DECODING (10_state.md R37). -/
theorem statusWord_delivered (hm : s.mode = .decoding) (hv : s.symValid = true) (hd : s.done = false)
    (hr : s.result = .ok) : statusWord s = 0x00000006#32 := by
  rw [statusWord, hm, hv, hd, hr]
  rfl

/-- STATUS after the end of the stream: DONE and IDLE (10_state.md R37). -/
theorem statusWord_end (hm : s.mode = .idle) (hv : s.symValid = false) (hd : s.done = true) (hr : s.result = .ok) :
    statusWord s = 0x00000008#32 := by
  rw [statusWord, hm, hv, hd, hr]
  rfl

/-- DEC_NEXT with a symbol of the table ahead delivers it and passes its codeword (42_decoder.md R193): no other
codeword begins what is ahead. -/
theorem decodingOf_exec_decNext (h : DecodingOf tbl n (x :: xs) t) (hx : HoldsSymbol tbl x) :
    ∃ u, exec .decNext t = .next u ∧ DecodingOf tbl (n + 1) xs u ∧ statusWord u = 0x00000006#32 ∧ u.decSym = x ∧
      u.hostOut = t.hostOut ∧ u.hostIn = t.hostIn := by
  obtain ⟨hinv, hm, rfl, hcount, hahead⟩ := h
  obtain ⟨i, hv, hsym⟩ := hx
  rw [codewords_cons ((symLookup_eq_some_iff hinv.table x i).2 ⟨hv, hsym⟩)] at hahead
  have hprefix : codeword (entryAt t.table i) <+: t.dbits.drop t.decPos.toNat := hahead ▸ List.prefix_append _ _
  have hg := (greedyMatch_eq_some_iff hinv.table le_rfl).2
    ((codeLookup_candidate_iff hinv.table).2 ⟨hv, rfl, hprefix⟩)
  obtain ⟨hk, -, hfit, -⟩ := greedyMatch_some hg
  have hpos := toNat_bitPosition hinv (hfit.trans hinv.dbits.1)
  refine ⟨_, exec_decNext_some hm (by omega) hg, ?_, statusWord_delivered hm rfl (hinv.decoding hm).2 rfl, hsym,
    rfl, rfl⟩
  exact
    { inv := inv_decNext hinv hm hk hfit
      mode := hm, table := rfl
      symCount := (toNat_symCount_succ hinv).trans (congrArg (· + 1) hcount)
      ahead := by
        dsimp only
        rw [hpos, ← List.drop_drop, hahead, List.drop_left' (by simp [codeword])] }

/-- The accesses by which the host fetches one symbol (42_decoder.md R196). -/
def delivery : List HostEvent := [cmd .decNext, rd .status, rd .decSym]

/-- One delivery returns STATUS 0x0006 and the symbol to the host (42_decoder.md R196). -/
theorem decodingOf_delivery (h : DecodingOf tbl n (x :: xs) t) (hx : HoldsSymbol tbl x)
    (hin : t.hostIn = delivery ++ rest) :
    ∃ u, core.run delivery.length t = .next u ∧ DecodingOf tbl (n + 1) xs u ∧
      u.hostOut = t.hostOut ++ [0x00000006#32, x] ∧ u.hostIn = rest := by
  have htaken : DecodingOf tbl n (x :: xs) { t with hostIn := rd .status :: rd .decSym :: rest } :=
    { h with inv := { h.inv with } }
  obtain ⟨u, hexec, hu, hstatus, hsym, hout, hrest⟩ := decodingOf_exec_decNext htaken hx
  have hstep₁ : step t = .next u := (step_cmd hin).trans hexec
  have hstep₂ := step_rd (r := .status) hrest
  have hstep₃ := step_rd (r := .decSym) (s := respond (readReg u .status) { u with hostIn := rd .decSym :: rest }) rfl
  refine ⟨_, (core_run_succ hstep₁ 2).trans ((core_run_succ hstep₂ 1).trans (core_run_succ hstep₃ 0)),
    { hu with inv := { hu.inv with } }, ?_, rfl⟩
  simp [respond, readReg, hstatus, hsym, hout]

/-- The deliveries of all the symbols ahead return them in order (42_decoder.md R196). -/
theorem decodingOf_deliveries (hxs : ∀ x ∈ xs, HoldsSymbol tbl x) (h : DecodingOf tbl n xs t)
    (hin : t.hostIn = (List.replicate xs.length delivery).flatten ++ rest) :
    ∃ u, core.run (List.replicate xs.length delivery).flatten.length t = .next u ∧
      DecodingOf tbl (n + xs.length) [] u ∧
      u.hostOut = t.hostOut ++ xs.flatMap (fun x => [0x00000006#32, x]) ∧ u.hostIn = rest := by
  induction xs generalizing n t with
  | nil => exact ⟨t, rfl, h, (List.append_nil _).symm, hin⟩
  | cons x xs ih =>
    obtain ⟨hx, hxs⟩ := List.forall_mem_cons.1 hxs
    rw [List.length_cons, List.replicate_succ, List.flatten_cons] at hin ⊢
    rw [List.append_assoc] at hin
    obtain ⟨u, hrun, hu, hout, hrest⟩ := decodingOf_delivery h hx hin
    obtain ⟨v, hrun', hv, hout', hrest'⟩ := ih hxs hu hrest
    refine ⟨v, run_append hrun hrun', by rwa [Nat.add_right_comm] at hv, ?_, hrest'⟩
    rw [hout', hout, List.flatMap_cons, List.append_assoc]

/-- With no codeword ahead DEC_NEXT reports the end of the stream (42_decoder.md R193, R196). -/
theorem decodingOf_end (h : DecodingOf tbl n [] t) (hin : t.hostIn = cmd .decNext :: rd .status :: rest) :
    ∃ u : State, core.run [cmd .decNext, rd .status].length t = .next u ∧ u.hostOut = t.hostOut ++ [0x00000008#32] ∧
      u.symCount.toNat = n ∧ u.mode = .idle ∧ u.hostIn = rest := by
  obtain ⟨hinv, hm, -, hcount, hahead⟩ := h
  have hend : t.decPos.toNat = t.dbits.length := le_antisymm hinv.decPos (List.drop_eq_nil_iff.1 hahead)
  have hstep₁ := (step_cmd hin).trans (exec_decNext_end (s := { t with hostIn := rd .status :: rest }) hm hend)
  have hstep₂ := step_rd (r := .status) (s := { t with
    hostIn := rd .status :: rest, symValid := false, done := true, mode := .idle, result := .ok }) rfl
  refine ⟨_, (core_run_succ hstep₁ 1).trans (core_run_succ hstep₂ 0), ?_, hcount, rfl, rfl⟩
  simp [respond, readReg, statusWord_end]

/-- The accesses of a decode of `m` symbols: DEC_START, the deliveries, and the DEC_NEXT that finds the end. -/
theorem decodeEvents_eq (m : Nat) : decodeEvents m =
    [cmd .decStart] ++ ((List.replicate m delivery).flatten ++ [cmd .decNext, rd .status]) := rfl

/-- A decode of the packet of a payload returns its symbols in order, then the end (42_decoder.md R196). -/
theorem decode_of_packet (h : Inv s) (hm : s.mode = .idle) (hxs : ∀ x ∈ xs, HoldsSymbol s.table x)
    (hpacket : packet s = pack (encodedPayload s.table xs) s.byteOrder)
    (hin : s.hostIn = decodeEvents xs.length ++ rest) :
    ∃ u : State, core.run (decodeEvents xs.length).length s = .next u ∧
      u.hostOut = s.hostOut ++ (xs.flatMap (fun x => [0x00000006#32, x]) ++ [0x00000008#32]) ∧
      u.symCount.toNat = xs.length ∧ u.mode = .idle ∧ u.hostIn = rest := by
  rw [decodeEvents_eq] at hin ⊢
  rw [List.append_assoc, List.append_assoc] at hin
  obtain ⟨t₁, hrun₁, h₁, hout₁, hin₁⟩ := decodingOf_start h hm hpacket hin
  obtain ⟨t₂, hrun₂, h₂, hout₂, hin₂⟩ := decodingOf_deliveries hxs h₁ hin₁
  obtain ⟨t₃, hrun₃, hout₃, hcount, hfinal⟩ := decodingOf_end h₂ hin₂
  refine ⟨t₃, run_append hrun₁ (run_append hrun₂ hrun₃), ?_, by rwa [Nat.zero_add] at hcount, hfinal⟩
  rw [hout₃, hout₂, hout₁, List.append_assoc]

/-- Settles O32: the encode leaves the packet of the payload in PBUF and what the decode works from as it was, and the
decode of that packet returns the symbols. -/
theorem encodeThenDecodeRoundTrip : Obligations.EncodeThenDecodeRoundTrip := by
  intro s syms rest h hm hne hsyms hfit hin
  obtain ⟨t, hrun, -, hpacket, -, hmt, -, -, hrest⟩ := encodeGivesThePackedPayload s syms _ h hm hne hsyms hfit hin
  obtain ⟨htable, hbo, hout, -⟩ := encodeFrame_of_run encodeAccess_of_mem_encodeEvents hin hrun
  dsimp only at htable hbo hout
  rw [← htable] at hsyms
  rw [← htable, ← hbo] at hpacket
  obtain ⟨u, hrun', hresult⟩ := decode_of_packet (inv_of_run h hrun) hmt hsyms hpacket hrest
  rw [← hout]
  exact ⟨u, (run_add hrun _).trans hrun', hresult⟩

end Sys2Proof.Machine
end

section
/-! SUPPORT. The control commands (43_control.md R220 to R222) check nothing: each finishes with OK in every state. -/

namespace Sys2Proof.Machine

/-- Settles O8: NOP finishes with OK on the state as it stands. -/
theorem nopSetsOnlyResult : Obligations.NopSetsOnlyResult :=
  fun _ => finishOk_eq_next.2 rfl

/-- Settles O9: ABORT finishes with OK on the state put in IDLE with both flags cleared. -/
theorem abortEndsTheOperation : Obligations.AbortEndsTheOperation :=
  fun _ => finishOk_eq_next.2 rfl

/-- Settles O10: SOFT_RESET answers `resetRegisters`, which keeps only the build, PBUF and the model's own fields. -/
theorem softResetKeepsOnlyPbuf : Obligations.SoftResetKeepsOnlyPbuf :=
  fun _ => exec_softReset_eq_next.2 rfl

end Sys2Proof.Machine
end

section
/-! SUPPORT. Host padding, and the bytes of a symbol's value (49_host_reference.md R241, R242, R249, 30_encoding.md
R104). -/

namespace Sys2Proof.Machine

theorem padLen_lt {ord : Nat} (h : 1 ≤ ord) (n : Nat) : padLen ord n < ord := Nat.mod_lt _ h

theorem dvd_add_padLen {ord : Nat} (h : 1 ≤ ord) (n : Nat) : ord ∣ n + padLen ord n := by
  have hlt : n % ord < ord := Nat.mod_lt n h
  rw [padLen, Nat.dvd_iff_mod_eq_zero, Nat.add_mod_mod, ← Nat.mod_add_mod, Nat.add_sub_cancel' hlt.le, Nat.mod_self]

theorem length_padInput (ord : Nat) (fill : Byte) (b : List Byte) :
    (padInput ord fill b).length = b.length + padLen ord b.length := by
  simp [padInput]

/-- The first `n` symbols, joined, are the first `n * order` bytes (49_host_reference.md R242). -/
theorem flatten_map_range_chunks (ord : Nat) (b : List Byte) (n : Nat) :
    ((List.range n).map (fun k => (b.drop (k * ord)).take ord)).flatten = b.take (n * ord) := by
  induction n with
  | zero => simp
  | succ n ih => simp [List.range_succ, ih, Nat.succ_mul, List.take_add]

theorem flatten_splitSymbols {ord : Nat} {b : List Byte} (h : ord ∣ b.length) : (splitSymbols ord b).flatten = b := by
  rw [splitSymbols, flatten_map_range_chunks, Nat.div_mul_cancel h, List.take_length]

theorem length_of_mem_splitSymbols {ord : Nat} {b x : List Byte} (h : x ∈ splitSymbols ord b) : x.length = ord := by
  obtain ⟨k, hk, rfl⟩ := List.mem_map.1 h
  have hend : (k + 1) * ord ≤ b.length :=
    (Nat.mul_le_mul_right ord (List.mem_range.1 hk)).trans (Nat.div_mul_le_self _ _)
  rw [Nat.succ_mul] at hend
  rw [List.length_take, List.length_drop]
  omega

theorem packetValue_little_cons (x : Byte) (b : List Byte) :
    packetValue (x :: b) .little = x.toNat + 256 * packetValue b .little := rfl

theorem packetValue_little_lt (b : List Byte) : packetValue b .little < 256 ^ b.length := by
  induction b with
  | nil => simp [packetValue]
  | cons x b ih =>
    have hx : x.toNat < 256 := x.isLt
    rw [packetValue_little_cons, List.length_cons, pow_succ]
    omega

/-- Byte `i` of a number read little-endian is byte `i` of the packet (20_memory.md R90). -/
theorem ofNat_packetValue_shiftRight {b : List Byte} {i : Nat} (hi : i < b.length) :
    BitVec.ofNat 8 (packetValue b .little >>> (8 * i)) = b[i] := by
  induction b generalizing i with
  | nil => exact absurd hi (Nat.not_lt_zero i)
  | cons x b ih =>
    have hx : x.toNat < 256 := x.isLt
    rw [packetValue_little_cons]
    cases i with
    | zero => exact BitVec.eq_of_toNat_eq (by simp [hx])
    | succ i =>
      have hdiv : (x.toNat + 256 * packetValue b .little) / 2 ^ 8 = packetValue b .little := by omega
      rw [Nat.mul_succ, Nat.add_comm (8 * i), Nat.shiftRight_add, Nat.shiftRight_eq_div_pow _ 8, hdiv]
      exact ih (Nat.lt_of_succ_lt_succ hi)

theorem toNat_symval {b : List Byte} (h : b.length ≤ 4) : (symval b).toNat = packetValue b .little := by
  have hlt : packetValue b .little < 2 ^ 32 :=
    (packetValue_little_lt b).trans_le (Nat.pow_le_pow_right (by decide) h)
  rw [symval, BitVec.toNat_ofNat]
  exact Nat.mod_eq_of_lt hlt

/-- The bytes of a symbol's value are the symbol (30_encoding.md R104). -/
theorem symBytes_symval {b : List Byte} (h : b.length ≤ 4) : symBytes b.length (symval b) = b := by
  refine List.ext_getElem (by simp [symBytes]) fun i _ hi => ?_
  rw [← ofNat_packetValue_shiftRight hi, ← toNat_symval h]
  simp [symBytes]

/-- Settles O56: the filler makes the length a multiple of ORDER, so the symbols leave no byte out. -/
theorem paddingFillsWholeSymbols : Obligations.PaddingFillsWholeSymbols := by
  refine ⟨fun ord fill b h => ?_, fun b => symBytes_symval⟩
  have hlen := length_padInput ord fill b
  have hdvd := dvd_add_padLen h b.length
  refine ⟨padLen_lt h _, hdvd, hlen, List.take_left, fun x hx => ?_, ?_, flatten_splitSymbols (hlen ▸ hdvd),
    fun x => length_of_mem_splitSymbols⟩
  · rw [padInput, List.drop_left] at hx
    exact List.eq_of_mem_replicate hx
  · rw [stripPadding, hlen, Nat.add_sub_cancel]
    exact List.take_left

end Sys2Proof.Machine
end

section
/-! SUPPORT. The codewords a tree's walk generates (49_host_reference.md R246, R247). -/

namespace Sys2Proof.Machine

/-- Two bit-strings that part after a common beginning: neither begins the other. -/
theorem not_prefix_of_parting {acc v w : Bits} {b : Bool} (hv : acc ++ [b] <+: v) (hw : acc ++ [!b] <+: w) :
    ¬v <+: w := fun h => by
  have heq := List.prefix_of_prefix_length_le (hv.trans h) hw (by simp)
  simpa using heq.eq_of_length (by simp)

/-- Every codeword of a subtree begins with the path to it (49_host_reference.md R246). -/
theorem prefix_of_mem_treeCodes {t : Tree} {acc : Bits} {p : List Byte × Bits} (h : p ∈ treeCodes t acc) :
    acc <+: p.2 := by
  induction t generalizing acc with
  | leaf s =>
    obtain rfl := List.mem_singleton.1 h
    exact List.prefix_rfl
  | internal l r ihl ihr =>
    obtain h | h := List.mem_append.1 h
    · exact (List.prefix_append _ _).trans (ihl h)
    · exact (List.prefix_append _ _).trans (ihr h)

/-- The codewords to the left of a node part from those to its right at the node (49_host_reference.md R246). -/
theorem pairwise_treeCodes (t : Tree) (acc : Bits) :
    (treeCodes t acc).Pairwise (fun p q => ¬p.2 <+: q.2 ∧ ¬q.2 <+: p.2) := by
  induction t generalizing acc with
  | leaf s => exact List.pairwise_singleton _ _
  | internal l r ihl ihr =>
    refine List.pairwise_append.2 ⟨ihl _, ihr _, fun p hp q hq => ?_⟩
    have hp := prefix_of_mem_treeCodes hp
    have hq := prefix_of_mem_treeCodes hq
    exact ⟨not_prefix_of_parting hp hq, not_prefix_of_parting hq hp⟩

/-- The walk from an inner root takes at least one turn (49_host_reference.md R246). -/
theorem ne_nil_of_mem_treeCodes_internal {l r : Tree} {acc : Bits} {p : List Byte × Bits}
    (h : p ∈ treeCodes (.internal l r) acc) : p.2 ≠ [] := by
  obtain h | h := List.mem_append.1 h <;> exact (prefix_of_mem_treeCodes h).ne_nil (by simp)

/-- Settles O57: a single leaf has the codeword 0, and any other tree the codewords of its walk. -/
theorem treeCodesArePrefixFree : Obligations.TreeCodesArePrefixFree
  | .leaf s => ⟨by simp [generateCodes], List.pairwise_singleton _ _⟩
  | .internal l r => ⟨fun _ => ne_nil_of_mem_treeCodes_internal, pairwise_treeCodes _ _⟩

end Sys2Proof.Machine
end

section
/-! SUPPORT. Runs of host accesses (49_host_reference.md R253): what `issue` does access by access, and what it
keeps. -/

namespace Sys2Proof.Machine

variable {s t : State} {ev : HostEvent} {evs xs ys : List HostEvent}

theorem issue_cons_of_ok (h : deliver ev s = .next t) (hr : t.result = .ok) : issue (ev :: evs) s = issue evs t := by
  simp [issue, h, hr]

theorem issue_cons_of_error (h : deliver ev s = .next t) (hr : t.result ≠ .ok) :
    issue (ev :: evs) s = .error (.block t.result) := by
  simp [issue, h, hr]

/-- A run succeeds when its first access leaves RESULT OK and the rest succeeds from there. -/
theorem issue_cons_eq_ok : issue (ev :: evs) s = .ok t ↔
    ∃ u, deliver ev s = .next u ∧ u.result = .ok ∧ issue evs u = .ok t := by
  rw [issue]
  cases hd : deliver ev s with
  | next u => by_cases hr : u.result = .ok <;> simp [hr]
  | fault r => simp
  | refused r => simp

theorem issue_singleton_eq_ok : issue [ev] s = .ok t ↔ deliver ev s = .next t ∧ t.result = .ok := by
  rw [issue_cons_eq_ok]
  constructor
  · rintro ⟨u, hd, hr, hu⟩
    obtain rfl := Except.ok.inj hu
    exact ⟨hd, hr⟩
  · exact fun ⟨hd, hr⟩ => ⟨t, hd, hr, rfl⟩

/-- The second part of a run goes on from where the first ended, if it succeeded. -/
theorem issue_append (xs ys : List HostEvent) (s : State) : issue (xs ++ ys) s = (issue xs s).bind (issue ys) := by
  induction xs generalizing s with
  | nil => rfl
  | cons ev xs ih =>
    rw [List.cons_append, issue, issue]
    cases deliver ev s with
    | next u =>
      by_cases hr : u.result = .ok
      · simp only [hr, if_true, ih]
      · simp only [hr, if_false]
        rfl
    | fault r => rfl
    | refused r => rfl

theorem issue_append_of_ok {u : State} (h : issue xs s = .ok u) : issue (xs ++ ys) s = issue ys u := by
  rw [issue_append, h]
  rfl

theorem issue_append_eq_ok : issue (xs ++ ys) s = .ok t ↔ ∃ u, issue xs s = .ok u ∧ issue ys u = .ok t := by
  rw [issue_append]
  cases issue xs s <;> simp [Except.bind]

/-- What each access of a run keeps, the run keeps. -/
theorem issue_invariant {P : State → Prop}
    (hstep : ∀ ev ∈ evs, ∀ u v, P u → deliver ev u = .next v → v.result = .ok → P v) (hs : P s)
    (h : issue evs s = .ok t) : P t := by
  induction evs generalizing s with
  | nil =>
    obtain rfl := Except.ok.inj h
    exact hs
  | cons ev evs ih =>
    obtain ⟨u, hd, hr, hu⟩ := issue_cons_eq_ok.1 h
    exact ih (fun ev hev => hstep ev (List.mem_cons_of_mem _ hev)) (hstep ev List.mem_cons_self s u hs hd hr) hu

/-- A run that succeeds, of at least one access, leaves RESULT OK (49_host_reference.md R253). -/
theorem result_of_issue (hne : evs ≠ []) (h : issue evs s = .ok t) : t.result = .ok := by
  obtain ⟨ev, evs, rfl⟩ := List.exists_cons_of_ne_nil hne
  obtain ⟨u, -, hr, hu⟩ := issue_cons_eq_ok.1 h
  exact issue_invariant (P := fun v => v.result = .ok) (fun _ _ _ _ _ _ hv => hv) hr hu

/-- Nothing that happens to the block changes the build (00_scope.md R7). -/
theorem config_of_deliver (h : deliver ev s = .next t) : t.config = s.config := by
  obtain ⟨-, rfl⟩ | ⟨_, _, _, -, -, -, he⟩ | ⟨-, hk⟩ := deliver_effect h
  · rfl
  · exact config_of_commandEffect he
  · exact hk.config

theorem config_of_issue (h : issue evs s = .ok t) : t.config = s.config :=
  issue_invariant (P := fun v => v.config = s.config) (fun _ _ _ _ hu hd _ => (config_of_deliver hd).trans hu) rfl h

theorem deliver_wr (r : Reg) (v : Word) (s : State) : deliver (wr r v) s = writeReg r v s :=
  busWrite_offset s _ v r (wordAddr_offset r)

theorem deliver_cmd (i : Instr) (s : State) : deliver (cmd i) s = exec i s := by
  rw [cmd, deliver_wr, writeReg, writeCmd, decode_encode]

end Sys2Proof.Machine
end

section
/-! SUPPORT. The parts of the host reference that drive the block (49_host_reference.md R248, R252): loading the table,
loading a body, and the loop of a decode. -/

namespace Sys2Proof.Machine

variable {s t : State}

/-- Where every part of a host operation begins: the block is of build `c`, in IDLE, and its last RESULT is OK. -/
structure Ready (c : Config) (s : State) : Prop where
  config : s.config = c
  mode   : s.mode = .idle
  result : s.result = .ok

/-- TBL_WRITE leaves MODE alone, whether it succeeds or not (40_table.md R134). -/
theorem mode_of_exec_tblWrite (h : exec .tblWrite s = .next t) : t.mode = s.mode := by
  cases commandEffect_of_exec h with
  | badMode => rfl
  | tableFails _ he => rw [raised_of_not_aborts (not_aborts_of_tableError _ he)]
  | tblWrite => rfl

/-- The accesses of a `tblw` leave MODE alone (30_encoding.md R109). -/
theorem mode_of_tblw {i x c l : Word} : ∀ ev ∈ tblw i x c l, deliver ev s = .next t → t.mode = s.mode := by
  simp only [tblw, List.forall_mem_cons, deliver_wr, deliver_cmd]
  refine ⟨?_, ?_, ?_, ?_, mode_of_exec_tblWrite, nofun⟩
  all_goals
    rintro ⟨⟩
    rfl

theorem ready_of_loadEntry {c : Config} {k : Nat} {p : List Byte × Bits} (hs : Ready c s)
    (h : issue (loadEntry k p) s = .ok t) : Ready c t where
  config := (config_of_issue h).trans hs.config
  mode := issue_invariant (P := fun v => v.mode = .idle) (fun _ hev _ _ hu hd _ => (mode_of_tblw _ hev hd).trans hu)
    hs.mode h
  result := result_of_issue (List.cons_ne_nil _ _) h

theorem ready_of_loadEntries {c : Config} {k : Nat} {l : List (List Byte × Bits)} (hs : Ready c s)
    (h : loadEntries k l s = .ok t) : Ready c t := by
  induction l generalizing k s with
  | nil =>
    obtain rfl := Except.ok.inj h
    exact hs
  | cons p l ih =>
    rw [loadEntries] at h
    split at h
    · cases h
    · split at h
      · cases h
      · next hu => exact ih (ready_of_loadEntry hs hu) h

/-- The table can be loaded in IDLE and where it is no ROM only, and loading keeps IDLE (49_host_reference.md R248,
40_table.md R133). -/
theorem ready_of_loadTable {codes : List (List Byte × Bits)} (h : loadTable codes s = .ok t) :
    s.config.tableRom = false ∧ Ready s.config t := by
  rw [loadTable] at h
  split at h
  · cases h
  · next u hu =>
    obtain ⟨hd, hr⟩ := issue_singleton_eq_ok.1 hu
    rw [deliver_cmd] at hd
    obtain ⟨-, rfl⟩ | ⟨-, -, rfl⟩ | ⟨hm, hrom, rfl⟩ := execTblClear_cases hd
    · cases hr
    · cases hr
    · have hready : Ready s.config { s with table := [], result := .ok } := ⟨rfl, hm, rfl⟩
      exact ⟨hrom, ready_of_loadEntries hready h⟩

/-- A body that can be loaded is one that PBUF holds: PKT_LEN takes its length (20_memory.md R76). -/
theorem length_le_of_loadBody {body : List Byte} (h : loadBody body s = .ok t) :
    body.length ≤ s.config.pbufBytes := by
  rw [loadBody] at h
  split_ifs at h with hfit
  obtain ⟨u, hu, hlast⟩ := issue_append_eq_ok.1 h
  obtain ⟨hd, hr⟩ := issue_singleton_eq_ok.1 hlast
  obtain rfl := Host.Outcome.next.inj ((deliver_wr _ _ _).symm.trans hd)
  obtain ⟨-, heq⟩ | ⟨-, -, heq⟩ | ⟨-, hle, -⟩ := writePktLen_cases (BitVec.ofNat 32 body.length) u
  · rw [heq] at hr
    cases hr
  · rw [heq] at hr
    cases hr
  · rwa [BitVec.toNat_ofNat, Nat.mod_eq_of_lt (by omega), config_of_issue hu] at hle

/-- The loop of a decode succeeds at a DEC_NEXT that sets DONE and finishes with OK (49_host_reference.md R252). -/
theorem done_of_decodeLoop {fuel : Nat} {l : List Word} (h : decodeLoop fuel s = .ok (l, t)) :
    t.done = true ∧ t.result = .ok := by
  induction fuel generalizing s l with
  | zero => cases h
  | succ fuel ih =>
    rw [decodeLoop] at h
    split at h
    · cases h
    · next u hu =>
      split_ifs at h with hdone hvalid
      · obtain ⟨-, rfl⟩ := Prod.mk.inj (Except.ok.inj h)
        exact ⟨hdone, (issue_singleton_eq_ok.1 hu).2⟩
      · split at h
        · cases h
        · next hrec =>
          obtain ⟨-, rfl⟩ := Prod.mk.inj (Except.ok.inj h)
          exact ih hrec

theorem done_of_decodeBody {k : Contents} {l : List Word} (h : decodeBody k s = .ok (l, t)) :
    t.done = true ∧ t.result = .ok := by
  rw [decodeBody] at h
  split at h
  · cases h
  · split at h
    · cases h
    · next hloop =>
      obtain rfl := Except.ok.inj h
      exact done_of_decodeLoop hloop

end Sys2Proof.Machine
end

section
/-! SUPPORT. Writing and parsing a container (49_host_reference.md R250). -/

namespace Sys2Proof.Machine

/-- The fields that give some pairs are those pairs and one terminator after them (49_host_reference.md R250). -/
theorem readPairs_eq_some_iff {l : List HeaderField} {ps : List (List Byte × Bits)} :
    readPairs l = some ps ↔ ps.map (fun p => HeaderField.pair p.1 p.2) ++ [.terminator] = l := by
  induction l using readPairs.induct generalizing ps with
  | case1 => simp [readPairs]
  | case2 => cases ps <;> simp [readPairs]
  | case3 => cases ps <;> simp [readPairs]
  | case4 s w l ih =>
    cases ps with
    | nil => simp [readPairs]
    | cons p ps => simp [readPairs, ih, Prod.ext_iff, eq_comm, and_assoc, and_comm]
  | case5 => cases ps <;> simp [readPairs]

/-- Parsing gives some contents exactly for the container that holds them, if they fit (49_host_reference.md R250). -/
theorem readContainer_eq_ok_iff {ord : Nat} {c : Container} {k : Contents} :
    readContainer ord c = .ok k ↔ k.headerFits ord = true ∧ writeContainer k = c := by
  constructor
  · intro h
    rw [readContainer] at h
    split at h
    next n fields hheader =>
      split at h
      · cases h
      next codes hcodes =>
        dsimp only at h
        split_ifs at h with hfits
        obtain rfl := Except.ok.inj h
        refine ⟨hfits, ?_⟩
        rw [writeContainer, readPairs_eq_some_iff.1 hcodes, ← hheader]
    · cases h
  · rintro ⟨hfits, rfl⟩
    simp [readContainer, writeContainer, readPairs_eq_some_iff.2 rfl, hfits]

/-- Parsing fails in one way only (49_host_reference.md R250). -/
theorem readContainer_eq_error_or_ok (ord : Nat) (c : Container) :
    readContainer ord c = .error .invalidHeader ∨ ∃ k, readContainer ord c = .ok k := by
  rw [readContainer]
  split
  · split
    · exact .inl rfl
    · dsimp only
      split_ifs
      · exact .inr ⟨_, rfl⟩
      · exact .inl rfl
  · exact .inl rfl

theorem readContainer_of_no_terminator {ord : Nat} {c : Container} (h : .terminator ∉ c.header) :
    readContainer ord c = .error .invalidHeader := by
  refine (readContainer_eq_error_or_ok ord c).resolve_right ?_
  rintro ⟨k, hk⟩
  obtain ⟨-, rfl⟩ := readContainer_eq_ok_iff.1 hk
  exact h (by simp [writeContainer])

end Sys2Proof.Machine
end

section
/-! SUPPORT. A whole encode and a whole decode through the block (49_host_reference.md R243, R248 to R253). -/

namespace Sys2Proof.Machine

variable {s t : State}

/-- A decode succeeds when each of its parts does, each from the state the part before it left. -/
theorem parts_of_hostDecode {c : Container} {out : List Byte} (h : hostDecode c s = .ok (out, t)) :
    ∃ k u v syms, readContainer s.config.order c = .ok k ∧ loadTable k.codes s = .ok u ∧
      loadBody k.body u = .ok v ∧ decodeBody k v = .ok (syms, t) := by
  rw [hostDecode] at h
  split at h
  · cases h
  next k hk =>
    split at h
    · cases h
    next u hu =>
      split at h
      · cases h
      next v hv =>
        split at h
        · cases h
        next syms w hw =>
          obtain ⟨-, rfl⟩ := Prod.mk.inj (Except.ok.inj h)
          exact ⟨k, u, v, syms, hk, hu, hv, hw⟩

/-- A decode that succeeds had a body that PBUF holds and a table to load, and ends with DONE and RESULT OK. -/
theorem outcome_of_hostDecode {c : Container} {out : List Byte} (h : hostDecode c s = .ok (out, t)) :
    c.body.length ≤ s.config.pbufBytes ∧ s.config.tableRom = false ∧ t.done = true ∧ t.result = .ok := by
  obtain ⟨k, u, v, syms, hk, hu, hv, hw⟩ := parts_of_hostDecode h
  obtain ⟨-, rfl⟩ := readContainer_eq_ok_iff.1 hk
  obtain ⟨hrom, hready⟩ := ready_of_loadTable hu
  have hlen := length_le_of_loadBody hv
  rw [hready.config] at hlen
  exact ⟨hlen, hrom, done_of_decodeBody hw⟩

/-- An encode that succeeds had a table to load, and ends with RESULT OK and its body in PBUF. -/
theorem outcome_of_hostEncode {fill : Byte} {bo : ByteOrder} {b : List Byte} {c : Container}
    (h : hostEncode fill bo b s = .ok (c, t)) : s.config.tableRom = false ∧ t.result = .ok ∧ c.body = packet t := by
  rw [hostEncode] at h
  dsimp only at h
  split_ifs at h with hempty
  split at h
  · cases h
  next u hu =>
    split at h
    · cases h
    next w hw =>
      obtain ⟨rfl, rfl⟩ := Prod.mk.inj (Except.ok.inj h)
      exact ⟨(ready_of_loadTable hu).1, result_of_issue (List.cons_ne_nil _ _) hw, rfl⟩

/-- An empty input gets no filler, so it has no symbol (49_host_reference.md R241, R243). -/
theorem hostEncode_nil {fill : Byte} {bo : ByteOrder} : hostEncode fill bo [] s = .error .emptyInput := by
  simp [hostEncode, splitSymbols, padInput, padLen]

/-- Settles O58: runs by `issue_append`, and the two operations by what each of their parts needs to succeed. -/
theorem hostReportsEveryError : Obligations.HostReportsEveryError := by
  refine ⟨fun xs ys s t hne h => ?_, fun xs ys ev s u v hu hv hr => ?_, fun _ _ _ _ => outcome_of_hostDecode,
    fun _ _ _ _ _ _ => outcome_of_hostEncode, fun _ _ _ _ => hostEncode_nil⟩
  · obtain ⟨u, hu, ht⟩ := issue_append_eq_ok.1 h
    exact ⟨u, hu, result_of_issue hne hu, ht⟩
  · rw [issue_append_of_ok hu, issue_cons_of_error hv hr]

end Sys2Proof.Machine
end

section
/-! SUPPORT. A decode of a body without a sentinel (49_host_reference.md R250, R252, 90_conflicts.md C3). -/

namespace Sys2Proof.Machine

variable {s t : State}

theorem deliver_wrPbuf {i : Nat} (hi : i < s.config.pbufBytes) (hcap : s.config.pbufBytes ≤ 2 ^ 24) (v : Word) :
    deliver (wrPbuf i v) s = .next (writePbuf i v s) := by
  have ha : (pbufAddr i).toNat / 4 = 0x4000 + i := by
    rw [pbufAddr, pbufBase, BitVec.toNat_ofNat]
    omega
  rw [wrPbuf, deliver, busWrite, target_window hi ha]

theorem byteField_setWidth (b : Byte) : byteField (b.setWidth 32) = b := by
  have hb : b.toNat < 256 := b.isLt
  exact BitVec.eq_of_toNat_eq (by rw [toNat_byteField, BitVec.toNat_setWidth]; omega)

theorem byteOrderField_ctrlWord (bo : ByteOrder) : byteOrderField (ctrlWord bo) = bo := by
  cases bo <;> rfl

/-- The PBUF writes of `ldpkt` store the bytes, in IDLE and inside PBUF (20_memory.md R75). -/
theorem issue_ldbytes {c : Config} (hs : Ready c s) (hcap : s.config.pbufBytes ≤ 2 ^ 24) (bs : List Byte) {i : Nat}
    (hfit : i + bs.length ≤ s.config.pbufBytes) :
    issue (ldbytes i bs) s = .ok { s with pbuf := writeBytes s.pbuf i bs } := by
  induction bs generalizing s i with
  | nil => rfl
  | cons b bs ih =>
    rw [List.length_cons] at hfit
    have hd : deliver (wrPbuf i (b.setWidth 32)) s = .next { s with pbuf := writeByte s.pbuf i b } := by
      rw [deliver_wrPbuf (by omega) hcap, writePbuf, if_neg (not_not_intro hs.mode), byteField_setWidth]
    have hnext : Ready c { s with pbuf := writeByte s.pbuf i b } := { hs with }
    rw [ldbytes, issue_cons_of_ok hd hs.result, ih hnext hcap (by dsimp only; omega)]
    rfl

/-- A body that PBUF holds is loaded, and is then the packet (49_host_reference.md R252). -/
theorem exists_loadBody {c : Config} (hs : Ready c s) (hcap : s.config.pbufBytes ≤ 2 ^ 24) {body : List Byte}
    (hlen : body.length ≤ s.config.pbufBytes) : ∃ t, loadBody body s = .ok t ∧ Ready c t ∧ packet t = body := by
  have hnat : (BitVec.ofNat 32 body.length).toNat = body.length := by
    rw [BitVec.toNat_ofNat]
    omega
  refine ⟨{ s with pbuf := writeBytes s.pbuf 0 body, pktLen := BitVec.ofNat 32 body.length }, ?_, { hs with },
    packet_of_writeBytes rfl rfl hnat⟩
  rw [loadBody, if_neg (by rw [pbufBase]; omega), ldpkt,
    issue_append_of_ok (issue_ldbytes hs hcap body (by rwa [Nat.zero_add])), issue_singleton_eq_ok, deliver_wr,
    writeReg, writePktLen, if_neg (not_not_intro hs.mode), if_neg (by rw [hnat]; exact hlen.not_gt)]
  exact ⟨rfl, hs.result⟩

/-- A packet without a 1 bit ends the decode at DEC_START, with NO_SENTINEL (42_decoder.md R192). -/
theorem decodeBody_no_sentinel {c : Config} (hs : Ready c s) {k : Contents}
    (hnone : true ∉ unpack (packet s) k.byteOrder) :
    decodeBody k s = .error (.corruptContainer .noSentinel) := by
  have horder : deliver (wr .ctrl (ctrlWord k.byteOrder)) s = .next { s with byteOrder := k.byteOrder } := by
    rw [deliver_wr, writeReg, writeCtrl, if_neg (not_not_intro hs.mode), byteOrderField_ctrlWord]
  have hstart := exec_decStart_none (s := { s with byteOrder := k.byteOrder }) hs.mode (firstOne_eq_none_iff.2 hnone)
  rw [decodeBody, order, List.singleton_append, issue_cons_of_ok horder hs.result,
    issue_cons_of_error ((deliver_cmd _ _).trans hstart) nofun]
  rfl

/-- A container whose table loads, and whose body PBUF holds but has no 1 bit, is corrupt (49_host_reference.md
R250). -/
theorem hostDecode_no_sentinel {c : Container} {k : Contents} (hwf : Config.wf s.config)
    (hk : readContainer s.config.order c = .ok k) (ht : loadTable k.codes s = .ok t)
    (hlen : c.body.length ≤ s.config.pbufBytes) (hnone : true ∉ unpack c.body c.byteOrder) :
    hostDecode c s = .error (.corruptContainer .noSentinel) := by
  obtain ⟨-, rfl⟩ := readContainer_eq_ok_iff.1 hk
  obtain ⟨-, hready⟩ := ready_of_loadTable ht
  obtain ⟨-, -, -, ⟨-, hcap⟩, -⟩ := hwf
  rw [← hready.config] at hcap hlen
  obtain ⟨u, hu, hready', hpacket⟩ := exists_loadBody (body := k.body) hready hcap hlen
  have hdecode := decodeBody_no_sentinel hready' (k := k) (by rwa [hpacket])
  rw [hostDecode, hk]
  simp only [ht, hu, hdecode]

/-- Settles O59: parsing by its equivalence with writing, and a body with no 1 bit by DEC_START's end. -/
theorem containerReadInvertsWrite : Obligations.ContainerReadInvertsWrite := by
  refine ⟨fun _ _ _ => readContainer_eq_ok_iff, fun c s h => ?_, fun _ _ _ _ => hostDecode_no_sentinel⟩
  rw [hostDecode, readContainer_of_no_terminator h]

end Sys2Proof.Machine
end

section
/-! SUPPORT. Every transaction completes (60_exceptions.md R287): each meaning, and each write, ends in a next state. -/

namespace Sys2Proof.Machine

/-- The outcome is a next state, neither a fault nor a refusal. -/
def Completes (o : Host.Outcome State Fault Refusal) : Prop := ∃ t, o = .next t

theorem completes_next (s : State) : Completes (.next s) := ⟨s, rfl⟩

theorem completes_finishOk (s : State) : Completes (finishOk s) := completes_next _

theorem completes_raiseError (e : Result) (s : State) : Completes (raiseError e s) := completes_next _

/-- An outcome that completes still does behind a check that fails with an error: the shape of a command's checks. -/
theorem completes_check {p : Prop} [Decidable p] {o : Host.Outcome State Fault Refusal} (ho : Completes o) (e : Result)
    (s : State) : Completes (if p then raiseError e s else o) := by
  split
  · exact completes_raiseError e s
  · exact ho

/-- Every command completes in every state: behind its checks it finishes or fails. -/
theorem completes_exec (i : Instr) (s : State) : Completes (exec i s) := by
  cases i with
  | nop | abort | softReset => exact completes_finishOk _
  | tblClear => exact completes_check (completes_check (completes_finishOk _) _ s) _ s
  | tblWrite =>
    refine completes_check (completes_check (completes_check (completes_check ?_ _ s) _ s) _ s) _ s
    exact completes_check (completes_check (completes_finishOk _) _ s) _ s
  | tblRead => exact completes_check (completes_finishOk _) _ s
  | tblInvalidate => exact completes_check (completes_check (completes_check (completes_finishOk _) _ s) _ s) _ s
  | encStart => exact completes_check (completes_finishOk _) _ s
  | encPut =>
    refine completes_check ?_ _ s
    split
    · exact completes_raiseError _ s
    · exact completes_check (completes_finishOk _) _ s
  | encFinish => exact completes_check (completes_check (completes_finishOk _) _ s) _ s
  | decStart =>
    refine completes_check ?_ _ s
    split
    · exact completes_raiseError _ _
    · exact completes_finishOk _
  | decNext =>
    refine completes_check ?_ _ s
    split
    · exact completes_finishOk _
    · split
      · exact completes_raiseError _ _
      · exact completes_finishOk _

theorem completes_writeCmd (w : Word) (s : State) : Completes (writeCmd w s) := by
  unfold writeCmd
  split
  · exact completes_exec _ s
  · exact completes_raiseError _ s

theorem completes_writeReg (r : Reg) (d : Word) (s : State) : Completes (writeReg r d s) := by
  cases r with
  | cmd => exact completes_writeCmd d s
  | _ => exact completes_next _

theorem completes_busWrite (addr d : Word) (s : State) : Completes (busWrite addr d s) := by
  unfold busWrite
  split
  · exact completes_writeReg _ d s
  all_goals exact completes_next _

theorem completes_deliver (ev : HostEvent) (s : State) : Completes (deliver ev s) := by
  cases ev with
  | write addr d => exact completes_busWrite addr d s
  | _ => exact completes_next _

/-- Settles O6: a step without an access is the state itself, one with an access is that access; both complete. -/
theorem everyTransactionCompletes : Obligations.EveryTransactionCompletes := by
  refine ⟨fun s => ?_, completes_exec⟩
  cases hin : s.hostIn with
  | nil => exact ⟨s, step_nil hin⟩
  | cons ev rest =>
    obtain ⟨t, ht⟩ := completes_deliver ev { s with hostIn := rest }
    exact ⟨t, (step_cons hin).trans ht⟩

end Sys2Proof.Machine
end

section
/-! SUPPORT. What RESULT tells of a command, and what changes it (60_exceptions.md R270 to R274, R286). -/

namespace Sys2Proof.Machine

/-- The errors that end the running operation (60_exceptions.md R274). -/
theorem aborts_iff {e : Result} : aborts e = true ↔ e = .noSymbol ∨ e = .overflow ∨ e = .empty ∨ e = .decode := by
  cases e <;> decide

/-- `raise e` with its four aborting errors written out (60_exceptions.md R274). -/
theorem raised_eq (e : Result) (s : State) : raised e s = { s with
    result := e,
    mode := if e = .noSymbol ∨ e = .overflow ∨ e = .empty ∨ e = .decode then .idle else s.mode } := by
  simp only [raised, aborts_iff]

/-- Settles O44: a command that does not end with OK ends with `raise`, beside which only DEC_START and DEC_NEXT clear
flags. -/
theorem errorAction : Obligations.ErrorAction := by
  intro i s t h hne
  cases commandEffect_of_exec h with
  | badMode | tableFails | encPutFails | encFinishEmpty => exact ⟨raised_eq _ s, .inl ⟨rfl, rfl⟩⟩
  | decStartFails => exact ⟨rfl, .inr (.inl ⟨rfl, rfl, rfl, rfl⟩)⟩
  | decNextFails => exact ⟨rfl, .inr (.inr ⟨rfl, rfl, rfl, rfl⟩)⟩
  | _ => exact absurd rfl hne

/-- Settles O45: each command by its inversion lemma; a word that is no command's word decodes to none. -/
theorem resultsOfEachCommand : Obligations.ResultsOfEachCommand := by
  refine ⟨fun i s t h => ?_, fun w s t hw h => ?_⟩
  · cases i with
    | nop | abort | softReset =>
      obtain rfl := finishOk_eq_next.1 h
      simp
    | tblClear => obtain ⟨-, rfl⟩ | ⟨-, -, rfl⟩ | ⟨-, -, rfl⟩ := execTblClear_cases h <;> simp
    | tblWrite =>
      obtain ⟨-, rfl⟩ | ⟨-, -, rfl⟩ | ⟨-, -, ⟨e, he, rfl⟩ | ⟨-, -, -, -, -, rfl⟩⟩ := execTblWrite_cases h
      · simp
      · simp
      · fin_cases he <;> simp
      · simp
    | tblRead => obtain ⟨-, rfl⟩ | ⟨-, rfl⟩ := execTblRead_cases h <;> simp
    | tblInvalidate =>
      obtain ⟨-, rfl⟩ | ⟨-, -, rfl⟩ | ⟨-, -, rfl | rfl⟩ := execTblInvalidate_cases h <;> simp
    | encStart => obtain ⟨-, rfl⟩ | ⟨-, rfl⟩ := execEncStart_cases h <;> simp
    | encPut => obtain ⟨-, rfl⟩ | ⟨-, ⟨-, rfl⟩ | ⟨i, -, ⟨-, rfl⟩ | ⟨-, rfl⟩⟩⟩ := execEncPut_cases h <;> simp
    | encFinish => obtain ⟨-, rfl⟩ | ⟨-, -, rfl⟩ | ⟨-, -, rfl⟩ := execEncFinish_cases h <;> simp
    | decStart => obtain ⟨-, rfl⟩ | ⟨-, -, rfl⟩ | ⟨-, z, -, rfl⟩ := execDecStart_cases h <;> simp
    | decNext =>
      obtain ⟨-, rfl⟩ | ⟨-, ⟨-, rfl⟩ | ⟨-, -, rfl⟩ | ⟨-, i, k, -, rfl⟩⟩ := execDecNext_cases h <;> simp
  · obtain ⟨i, hi, -⟩ | ⟨-, rfl⟩ := writeCmd_cases h
    · exact absurd (encode_of_decode hi).symm (hw i)
    · rfl

/-- Settles O46: of the accesses that are neither a power-on nor a CMD write, only the rejected writes to CTRL, PKT_LEN
and PBUF touch RESULT. -/
theorem resultPersists : Obligations.ResultPersists := by
  intro s t ev rest hin h hpower hcmd
  rw [step_cons hin] at h
  obtain ⟨rfl, -⟩ | ⟨a, -, rfl⟩ | ⟨a, w, rfl, ha, -⟩ |
    ⟨a, w, rfl, -, rfl | ⟨ha, rfl⟩ | ⟨ha, rfl⟩ | rfl | rfl | rfl | rfl | ⟨i, ha, rfl⟩⟩ := deliver_cases h
  · exact absurd rfl hpower
  · exact .inl rfl
  · exact absurd (wordAddr_eq_cmd_iff.1 ha) (hcmd a w rfl)
  · exact .inl rfl
  · obtain ⟨hm, heq⟩ | ⟨-, heq⟩ := writeCtrl_cases w { s with hostIn := rest } <;> rw [heq]
    · exact .inr (.inl ⟨a, w, rfl, hm, rfl, .inl (addr_of_target_reg ha)⟩)
    · exact .inl rfl
  · obtain ⟨hm, heq⟩ | ⟨hm, hw, heq⟩ | ⟨-, -, heq⟩ := writePktLen_cases w { s with hostIn := rest } <;> rw [heq]
    · exact .inr (.inl ⟨a, w, rfl, hm, rfl, .inr (.inl (addr_of_target_reg ha))⟩)
    · exact .inr (.inr ⟨a, w, rfl, hm, rfl, addr_of_target_reg ha, hw⟩)
    · exact .inl rfl
  · exact .inl rfl
  · exact .inl rfl
  · exact .inl rfl
  · exact .inl rfl
  · obtain ⟨hm, heq⟩ | ⟨-, heq⟩ := writePbuf_cases i w { s with hostIn := rest } <;> rw [heq]
    · obtain ⟨hi, hword⟩ := addr_of_target_pbuf ha
      dsimp only at hi
      exact .inr (.inl ⟨a, w, rfl, hm, rfl, .inr (.inr ⟨by omega, by omega⟩)⟩)
    · exact .inl rfl

end Sys2Proof.Machine
end

section
/-! SUPPORT. How long a decode loop lasts (70_reset_and_hazards.md R310): in DECODING each DEC_NEXT passes at least one
bit of DBITS or ends the operation, and in IDLE it changes neither the mode nor the host's list. -/

namespace Sys2Proof.Machine

variable {s : State} {n : Nat}

/-- The operation is over, or is a decode with fewer than `n` bits left. -/
abbrev DecodeEndsWithin (n : Nat) (s : State) : Prop :=
  s.mode = .idle ∨ s.mode = .decoding ∧ s.dbits.length - s.decPos.toNat < n

/-- A DEC_NEXT brings the end of the decode one command nearer. -/
theorem decodeEndsWithin_exec_decNext (h : Inv s) (he : DecodeEndsWithin (n + 1) s) :
    ∃ t, exec .decNext s = .next t ∧ Inv t ∧ t.hostIn = s.hostIn ∧ DecodeEndsWithin n t := by
  obtain ⟨t, ht⟩ := completes_exec .decNext s
  refine ⟨t, ht, inv_of_commandEffect h (commandEffect_of_exec ht), ?_⟩
  obtain ⟨hm, rfl⟩ | ⟨hm, ⟨-, rfl⟩ | ⟨-, -, rfl⟩ | ⟨-, i, k, hg, rfl⟩⟩ := execDecNext_cases ht
  · exact ⟨rfl, .inl (he.resolve_right fun hd => hm hd.1)⟩
  · exact ⟨rfl, .inl rfl⟩
  · exact ⟨rfl, .inl rfl⟩
  · obtain ⟨-, hleft⟩ := he.resolve_left (by simp [hm])
    obtain ⟨hk, -, hfit, -⟩ := greedyMatch_some hg
    have hpos := toNat_bitPosition h (hfit.trans h.dbits.1)
    exact ⟨rfl, .inr ⟨hm, by dsimp only; omega⟩⟩

/-- As many DEC_NEXT as the bound says end the decode; those that come after its end keep IDLE. -/
theorem run_decNext_idle {rest : List HostEvent} (h : Inv s) (he : DecodeEndsWithin n s)
    (hin : s.hostIn = List.replicate n (cmd .decNext) ++ rest) :
    ∃ t, core.run n s = .next t ∧ t.mode = .idle ∧ t.hostIn = rest := by
  induction n generalizing s with
  | zero => exact ⟨s, rfl, he.resolve_right fun hd => Nat.not_lt_zero _ hd.2, hin⟩
  | succ n ih =>
    have hstep := step_cmd (rest := List.replicate n (cmd .decNext) ++ rest) hin
    obtain ⟨u, hu, hinv, hrest, hend⟩ := decodeEndsWithin_exec_decNext
      (s := { s with hostIn := List.replicate n (cmd .decNext) ++ rest }) { h with } he
    rw [core_run_succ (hstep.trans hu)]
    exact ih hinv hend hrest

/-- Settles O33: at the start fewer bits are left than commands are given. -/
theorem decodeLoopEnds : Obligations.DecodeLoopEnds :=
  fun _ _ h hm hin => run_decNext_idle h (.inr ⟨hm, Nat.lt_succ_self _⟩) hin

end Sys2Proof.Machine
end

section
/-! SUPPORT. Power-on (70_reset_and_hazards.md R300 to R303), and where its draw of PBUF_INIT can be seen: only through
a byte of PBUF that nothing has written. -/

namespace Sys2Proof.Machine

variable {s : State} {draw : Nat}

/-- Settles O54: power-on is `powerOnReset`, which lists no byte of PBUF, so that each reads as the new draw. -/
theorem powerOnResetRule : Obligations.PowerOnResetRule :=
  fun _ _ hin => ⟨_, step_cons hin, rfl, fun _ => rfl⟩

/-- Both outcomes are next states, which agree but for the draw, `draw` in the second. -/
def SameButDraw (draw : Nat) (o o' : Host.Outcome State Fault Refusal) : Prop :=
  ∃ t, o = .next t ∧ o' = .next { t with powerOns := draw }

theorem sameButDraw_next (draw : Nat) (t : State) : SameButDraw draw (.next t) (.next { t with powerOns := draw }) :=
  ⟨t, rfl, rfl⟩

/-- A choice that does not look at the draw keeps outcomes the same: the shape of a command's checks. -/
theorem sameButDraw_ite {p : Prop} [Decidable p] {a a' b b' : Host.Outcome State Fault Refusal}
    (ha : SameButDraw draw a a') (hb : SameButDraw draw b b') :
    SameButDraw draw (if p then a else b) (if p then a' else b') := by
  split
  · exact ha
  · exact hb

/-- A written byte of PBUF reads the same under every draw (70_reset_and_hazards.md R302). -/
theorem readByte_of_written {i : Nat} (h : SMap.get? s.pbuf i ≠ none) (draw : Nat) :
    readByte { s with powerOns := draw } i = readByte s i := by
  obtain ⟨b, hb⟩ := Option.ne_none_iff_exists'.1 h
  simp [readByte, hb]

/-- Every byte of the packet has been written since power-on. -/
abbrev PacketWritten (s : State) : Prop := ∀ i, i < s.pktLen.toNat → SMap.get? s.pbuf i ≠ none

/-- A packet of written bytes is the same under every draw (70_reset_and_hazards.md R302). -/
theorem packet_of_written (h : PacketWritten s) (draw : Nat) : packet { s with powerOns := draw } = packet s :=
  List.map_congr_left fun i hi => readByte_of_written (h i (List.mem_range.1 hi)) draw

/-- A command reads the draw only where it is a DEC_START in IDLE over an unwritten byte. -/
theorem sameButDraw_exec {i : Instr} (h : i = .decStart → s.mode = .idle → PacketWritten s) (draw : Nat) :
    SameButDraw draw (exec i s) (exec i { s with powerOns := draw }) := by
  have hnext := sameButDraw_next draw
  cases i with
  | nop | abort | softReset => exact hnext _
  | tblClear => exact sameButDraw_ite (hnext _) (sameButDraw_ite (hnext _) (hnext _))
  | tblWrite =>
    refine sameButDraw_ite (hnext _) (sameButDraw_ite (hnext _) (sameButDraw_ite (hnext _) ?_))
    exact sameButDraw_ite (hnext _) (sameButDraw_ite (hnext _) (sameButDraw_ite (hnext _) (hnext _)))
  | tblRead => exact sameButDraw_ite (hnext _) (hnext _)
  | tblInvalidate =>
    exact sameButDraw_ite (hnext _) (sameButDraw_ite (hnext _) (sameButDraw_ite (hnext _) (hnext _)))
  | encStart => exact sameButDraw_ite (hnext _) (hnext _)
  | encPut =>
    refine sameButDraw_ite (hnext _) ?_
    dsimp only [symOperand]
    cases symLookup s.table s.argSym with
    | none => exact hnext _
    | some k => exact sameButDraw_ite (hnext _) (hnext _)
  | encFinish => exact sameButDraw_ite (hnext _) (sameButDraw_ite (hnext _) (hnext _))
  | decStart =>
    by_cases hm : s.mode = .idle
    · have hp := packet_of_written (h rfl hm) draw
      cases hz : firstOne (unpack (packet s) s.byteOrder) with
      | none =>
        rw [exec_decStart_none hm hz, exec_decStart_none (s := { s with powerOns := draw }) hm (hp.symm ▸ hz)]
        exact hnext _
      | some z =>
        rw [exec_decStart_some hm hz, exec_decStart_some (s := { s with powerOns := draw }) hm (hp.symm ▸ hz), hp]
        exact hnext _
    · exact ⟨_, if_pos hm, if_pos hm⟩
  | decNext =>
    refine sameButDraw_ite (hnext _) (sameButDraw_ite (hnext _) ?_)
    dsimp only
    cases greedyMatch s.table s.dbits s.decPos.toNat s.config.maxLen 1 with
    | none => exact hnext _
    | some m => exact hnext _

/-- A write of a word to CMD, likewise; the word of DEC_START is the one that runs it. -/
theorem sameButDraw_writeCmd {w : Word} (h : w = encode .decStart → s.mode = .idle → PacketWritten s) (draw : Nat) :
    SameButDraw draw (writeCmd w s) (writeCmd w { s with powerOns := draw }) := by
  unfold writeCmd
  cases hw : decode w with
  | ok i => exact sameButDraw_exec (fun hi => h (hi ▸ encode_of_decode hw).symm) draw
  | error r => exact sameButDraw_next draw _

theorem writeCtrl_draw (d : Word) (s : State) (draw : Nat) :
    writeCtrl d { s with powerOns := draw } = { writeCtrl d s with powerOns := draw } := by
  unfold writeCtrl
  split <;> rfl

theorem writePktLen_draw (d : Word) (s : State) (draw : Nat) :
    writePktLen d { s with powerOns := draw } = { writePktLen d s with powerOns := draw } := by
  unfold writePktLen
  split_ifs <;> rfl

theorem writePbuf_draw (i : Nat) (d : Word) (s : State) (draw : Nat) :
    writePbuf i d { s with powerOns := draw } = { writePbuf i d s with powerOns := draw } := by
  unfold writePbuf
  split <;> rfl

/-- A write reads the draw only where it is a write of DEC_START to CMD. -/
theorem sameButDraw_busWrite {a w : Word}
    (h : w = encode .decStart → target s.config a = .reg .cmd → s.mode = .idle → PacketWritten s) (draw : Nat) :
    SameButDraw draw (busWrite a w s) (busWrite a w { s with powerOns := draw }) := by
  unfold busWrite
  dsimp only
  cases ha : target s.config a with
  | reg r =>
    cases r with
    | cmd => exact sameButDraw_writeCmd (fun hw => h hw ha) draw
    | ctrl => exact ⟨_, rfl, congrArg _ (writeCtrl_draw w s draw)⟩
    | pktLen => exact ⟨_, rfl, congrArg _ (writePktLen_draw w s draw)⟩
    | _ => exact sameButDraw_next draw _
  | pbuf i => exact ⟨_, rfl, congrArg _ (writePbuf_draw i w s draw)⟩
  | reserved | unmapped => exact sameButDraw_next draw _

/-- A read gives the draw away only at the word of an unwritten byte of PBUF. -/
theorem busRead_draw {a : Word} (h : ∀ i, target s.config a = .pbuf i → SMap.get? s.pbuf i ≠ none) (draw : Nat) :
    busRead { s with powerOns := draw } a = busRead s a := by
  unfold busRead
  dsimp only
  cases ha : target s.config a with
  | pbuf i => exact congrArg (BitVec.setWidth 32) (readByte_of_written (h i ha) draw)
  | reg r => cases r <;> rfl
  | reserved | unmapped => rfl

theorem sameButDraw_read {a : Word} (h : ∀ i, target s.config a = .pbuf i → SMap.get? s.pbuf i ≠ none)
    (draw : Nat) :
    SameButDraw draw (deliver (.read a) s) (deliver (.read a) { s with powerOns := draw }) := by
  rw [deliver, deliver, busRead_draw h draw]
  exact sameButDraw_next draw _

/-- Settles O55: the draw is read through an unwritten byte only, by a read of its word or by DEC_START's packet. -/
theorem powerOnDrawIsHidden : Obligations.PowerOnDrawIsHidden := by
  intro s draw ev rest hin hpower hread hdec
  rw [step_cons hin, step_cons (s := { s with powerOns := draw }) hin]
  cases ev with
  | powerOn => exact absurd rfl hpower
  | read a =>
    refine sameButDraw_read (s := { s with hostIn := rest }) (fun i hi => ?_) draw
    obtain ⟨hlt, ha⟩ := addr_of_target_pbuf hi
    exact hread a i rfl ha hlt
  | write a w =>
    refine sameButDraw_busWrite (s := { s with hostIn := rest }) (fun hw ha => ?_) draw
    exact hdec a (hw ▸ rfl) (addr_of_target_reg ha)

end Sys2Proof.Machine
end
